-- ==== Sys2Proof/Word.lean ====
section
/-! DEFINITION. The word types of the machine (00_scope.md R7, R9): every value is an unsigned bit vector. -/

namespace Sys2Proof

/-- A byte: a general register, a timer, a memory cell, the immediate `kk` (R21, R27, R50, R81). -/
abbrev Byte := BitVec 8

/-- A 16-bit word: an opcode, `pc`, `I`, a saved return address (R24, R25, R26, R80). -/
abbrev Word := BitVec 16

/-- A 4-bit field: the register numbers `x` and `y`, the sprite height `n`, a key number (R9, R35, R89). -/
abbrev Nibble := BitVec 4

/-- The 12-bit field `addr` (R9, R89). -/
abbrev Addr12 := BitVec 12

end Sys2Proof
end

