-- ==== Sys2Proof/Config.lean ====
section
/-! DEFINITION. The parameters of 00_scope.md R6 at this hardware's values, the font of 20_memory.md R52, and the
one free value of the machine, the random byte of RND (10_state.md R38). -/

namespace Sys2Proof

/-- `MEM_SIZE`: addresses 0x000 to 0xFFF exist (R6, R50). -/
def Config.memSize : Nat := 4096

/-- `PROG_BASE`: where the program image is copied to, and the reset value of `pc` (R6, R53). -/
def Config.progBase : Nat := 0x200

/-- `PROG_MAX`: the longest image that `reset` accepts (R6, R262). -/
def Config.progMax : Nat := 3584

/-- `FLAG_REG`: the register that doubles as the flag (R6, R22). -/
def Config.flagReg : Nibble := 0xF

/-- `STACK_DEPTH`: the most return addresses that can be saved (R6, R26). -/
def Config.stackDepth : Nat := 16

/-- `DISP_W`: columns of the display (R6, R29). -/
abbrev Config.dispW : Nat := 64

/-- `DISP_H`: rows of the display (R6, R29). -/
abbrev Config.dispH : Nat := 32

/-- `NKEYS`: keys of the keypad (R6, R35). -/
abbrev Config.nKeys : Nat := 16

/-- `NREG`: general registers (R6, R21). -/
abbrev Config.nReg : Nat := 16

/-- `INSTR_BYTES`: the length of every instruction (R6, R80). -/
def Config.instrBytes : Nat := 2

/-- `STEPS_PER_CYCLE`, the source's N. DESIGN CHOICE (the spec's own, 92_eei_decisions.md D1; log 4): 1. -/
def Config.stepsPerCycle : Nat := 1

/-- The `FONT` bytes of glyphs 0 to 7 (R52). PRESUMED (general knowledge, GK2, D20; log 16). -/
def Config.fontLow : List Byte :=
  [0xF0, 0x90, 0x90, 0x90, 0xF0,
   0x20, 0x60, 0x20, 0x20, 0x70,
   0xF0, 0x10, 0xF0, 0x80, 0xF0,
   0xF0, 0x10, 0xF0, 0x10, 0xF0,
   0x90, 0x90, 0xF0, 0x10, 0x10,
   0xF0, 0x80, 0xF0, 0x10, 0xF0,
   0xF0, 0x80, 0xF0, 0x90, 0xF0,
   0xF0, 0x10, 0x20, 0x40, 0x40]

/-- The `FONT` bytes of glyphs 8 to F (R52). PRESUMED (general knowledge, GK2, D20; log 16). -/
def Config.fontHigh : List Byte :=
  [0xF0, 0x90, 0xF0, 0x90, 0xF0,
   0xF0, 0x90, 0xF0, 0x10, 0xF0,
   0xF0, 0x90, 0xF0, 0x90, 0x90,
   0xE0, 0x90, 0xE0, 0x90, 0xE0,
   0xF0, 0x80, 0x80, 0x80, 0xF0,
   0xE0, 0x90, 0x90, 0x90, 0xE0,
   0xF0, 0x80, 0xF0, 0x80, 0xF0,
   0xF0, 0x80, 0xF0, 0x80, 0x80]

/-- `FONT`: the 80 bytes that stand at 0x000 to 0x04F after reset, five a glyph (R6, R52). -/
def Config.font : List Byte := Config.fontLow ++ Config.fontHigh

/-- `draw8()`: the `k`-th random byte. A free value: it has no body, so nothing can be proved of any draw and no
two draws are related (R38, R145, R146, D15; log 3). -/
opaque Config.draw8 : Nat → Byte

end Sys2Proof
end

