-- ==== Sys2Proof/Syntax.lean ====
section
/-! DEFINITION. The 34 instructions of 30_encoding.md R84, one constructor a row of spec/opcode_table.json.
Bits that the decoder ignores (R85) are kept as a last field `ign`, so that an instruction determines its opcode and an
error can record it as fetched (R223; log 21); no meaning but the recorded opcode depends on them. -/

namespace Sys2Proof

/-- An instruction. Register numbers, immediates and addresses are exactly the fields of R81 and R89. -/
inductive Instr where
  /-- `CLS`, 0-E0 (R180). -/
  | cls (ign : Nibble)
  /-- `RET`, 0-EE (R110). -/
  | ret (ign : Nibble)
  /-- `JMP addr`, 1nnn (R111). -/
  | jmp (addr : Addr12)
  /-- `CALL addr`, 2nnn (R113). -/
  | call (addr : Addr12)
  /-- `SE Vx,kk`, 3xkk (R115). -/
  | seVxKk (x : Nibble) (kk : Byte)
  /-- `SNE Vx,kk`, 4xkk (R116). -/
  | sneVxKk (x : Nibble) (kk : Byte)
  /-- `SE Vx,Vy`, 5xy- (R117). -/
  | seVxVy (x y ign : Nibble)
  /-- `LD Vx,kk`, 6xkk (R130). -/
  | ldVxKk (x : Nibble) (kk : Byte)
  /-- `ADD Vx,kk`, 7xkk (R131). -/
  | addVxKk (x : Nibble) (kk : Byte)
  /-- `LD Vx,Vy`, 8xy0 (R135). -/
  | ldVxVy (x y : Nibble)
  /-- `OR Vx,Vy`, 8xy1 (R136). -/
  | orVxVy (x y : Nibble)
  /-- `AND Vx,Vy`, 8xy2 (R137). -/
  | andVxVy (x y : Nibble)
  /-- `XOR Vx,Vy`, 8xy3 (R138). -/
  | xorVxVy (x y : Nibble)
  /-- `ADD Vx,Vy`, 8xy4 (R139). -/
  | addVxVy (x y : Nibble)
  /-- `SUB Vx,Vy`, 8xy5 (R140). -/
  | subVxVy (x y : Nibble)
  /-- `SHR Vx`, 8x-6 (R142). -/
  | shrVx (x ign : Nibble)
  /-- `SUBN Vx,Vy`, 8xy7 (R141). -/
  | subnVxVy (x y : Nibble)
  /-- `SHL Vx`, 8x-E (R143). -/
  | shlVx (x ign : Nibble)
  /-- `SNE Vx,Vy`, 9xy- (R118). -/
  | sneVxVy (x y ign : Nibble)
  /-- `LD I,addr`, Annn (R160). -/
  | ldIAddr (addr : Addr12)
  /-- `JP V0,addr`, Bnnn (R114). -/
  | jpV0Addr (addr : Addr12)
  /-- `RND Vx,kk`, Cxkk (R145). -/
  | rndVxKk (x : Nibble) (kk : Byte)
  /-- `DRW Vx,Vy,n`, Dxyn (R181). -/
  | drwVxVyN (x y n : Nibble)
  /-- `SKP Vx`, Ex9E (R200). -/
  | skpVx (x : Nibble)
  /-- `SKNP Vx`, ExA1 (R201). -/
  | sknpVx (x : Nibble)
  /-- `LD Vx,DT`, Fx07 (R203). -/
  | ldVxDt (x : Nibble)
  /-- `LD Vx,K`, Fx0A (R202). -/
  | ldVxK (x : Nibble)
  /-- `LD DT,Vx`, Fx15 (R204). -/
  | ldDtVx (x : Nibble)
  /-- `LD ST,Vx`, Fx18 (R205). -/
  | ldStVx (x : Nibble)
  /-- `ADD I,Vx`, Fx1E (R161). -/
  | addIVx (x : Nibble)
  /-- `LD F,Vx`, Fx29 (R162). -/
  | ldFVx (x : Nibble)
  /-- `LD B,Vx`, Fx33 (R163). -/
  | ldBVx (x : Nibble)
  /-- `LD [I],Vx`, Fx55 (R164). -/
  | ldMemIVx (x : Nibble)
  /-- `LD Vx,[I]`, Fx65 (R165). -/
  | ldVxMemI (x : Nibble)
  deriving DecidableEq, Repr

end Sys2Proof
end

