-- ==== Sys2Proof/WellFormed.lean ====
section
/-! DEFINITION. What is well formed: instructions (no check is left, their types carry every bound) and the program
image that `reset` is given (70_reset_and_hazards.md R262). -/

namespace Sys2Proof

/-- Every term of `Instr` is an instruction the hardware has: `x`, `y` and `n` are any 4 bits, `kk` any 8, `addr` any
12, and every value is legal (30_encoding.md R89); ignored bits may hold anything (R85). The bounds are in the types, so
there is nothing left to refuse. -/
def Instr.wellFormed (_ : Instr) : Bool := true

/-- An image is accepted when it has at most `PROG_MAX` bytes, the empty one included (20_memory.md R53, R262). -/
def imageWellFormed (image : List Byte) : Bool := decide (image.length ≤ Config.progMax)

end Sys2Proof
end

