-- ==== Sys2Proof/Decode.lean ====
section
/-! DEFINITION. The decoder of 30_encoding.md R81 to R86, total on any bytes and rejecting by name, and after it the
encoder, written from the patterns of R84. -/

namespace Sys2Proof

/-- Why bytes are no instruction. -/
inductive DecodeError where
  /-- `DecodeError::UnknownOpcode`: the opcode matches no row of R84 (R86, 60_exceptions.md R222). -/
  | unknownOpcode (opcode : Word)
  /-- Fewer than two bytes: no opcode at all (R80). A step never meets it, since fetch reads two bytes (R41). -/
  | truncated
  deriving DecidableEq, Repr

/-- `group`, the high nibble left in place (R81). -/
def opGroup (op : Word) : Word := op &&& 0xF000#16

/-- `x`, bits 11:8 (R81). -/
def opX (op : Word) : Nibble := ((op &&& 0x0F00#16) >>> 8).setWidth 4

/-- `y`, bits 7:4 (R81). -/
def opY (op : Word) : Nibble := ((op &&& 0x00F0#16) >>> 4).setWidth 4

/-- `n`, bits 3:0 (R81). -/
def opN (op : Word) : Nibble := (op &&& 0x000F#16).setWidth 4

/-- `addr`, bits 11:0 (R81). -/
def opAddr (op : Word) : Addr12 := (op &&& 0x0FFF#16).setWidth 12

/-- `kk`, bits 7:0 (R81). -/
def opKk (op : Word) : Byte := (op &&& 0x00FF#16).setWidth 8

/-- The dispatch key of an opcode (R83). -/
def dispatchKey (op : Word) : Word :=
  if opGroup op = 0x0000#16 ∨ opGroup op = 0xE000#16 ∨ opGroup op = 0xF000#16 then op &&& 0xF0FF#16
  else if opGroup op = 0x8000#16 then op &&& 0xF00F#16
  else opGroup op

/-- The instruction whose row of R84 has the opcode's dispatch key; the ignored bits of R85 are kept as they are. -/
def decode (op : Word) : Except DecodeError Instr :=
  let key := dispatchKey op
  if key = 0x00E0#16 then .ok (.cls (opX op))
  else if key = 0x00EE#16 then .ok (.ret (opX op))
  else if key = 0x1000#16 then .ok (.jmp (opAddr op))
  else if key = 0x2000#16 then .ok (.call (opAddr op))
  else if key = 0x3000#16 then .ok (.seVxKk (opX op) (opKk op))
  else if key = 0x4000#16 then .ok (.sneVxKk (opX op) (opKk op))
  else if key = 0x5000#16 then .ok (.seVxVy (opX op) (opY op) (opN op))
  else if key = 0x6000#16 then .ok (.ldVxKk (opX op) (opKk op))
  else if key = 0x7000#16 then .ok (.addVxKk (opX op) (opKk op))
  else if key = 0x8000#16 then .ok (.ldVxVy (opX op) (opY op))
  else if key = 0x8001#16 then .ok (.orVxVy (opX op) (opY op))
  else if key = 0x8002#16 then .ok (.andVxVy (opX op) (opY op))
  else if key = 0x8003#16 then .ok (.xorVxVy (opX op) (opY op))
  else if key = 0x8004#16 then .ok (.addVxVy (opX op) (opY op))
  else if key = 0x8005#16 then .ok (.subVxVy (opX op) (opY op))
  else if key = 0x8006#16 then .ok (.shrVx (opX op) (opY op))
  else if key = 0x8007#16 then .ok (.subnVxVy (opX op) (opY op))
  else if key = 0x800E#16 then .ok (.shlVx (opX op) (opY op))
  else if key = 0x9000#16 then .ok (.sneVxVy (opX op) (opY op) (opN op))
  else if key = 0xA000#16 then .ok (.ldIAddr (opAddr op))
  else if key = 0xB000#16 then .ok (.jpV0Addr (opAddr op))
  else if key = 0xC000#16 then .ok (.rndVxKk (opX op) (opKk op))
  else if key = 0xD000#16 then .ok (.drwVxVyN (opX op) (opY op) (opN op))
  else if key = 0xE09E#16 then .ok (.skpVx (opX op))
  else if key = 0xE0A1#16 then .ok (.sknpVx (opX op))
  else if key = 0xF007#16 then .ok (.ldVxDt (opX op))
  else if key = 0xF00A#16 then .ok (.ldVxK (opX op))
  else if key = 0xF015#16 then .ok (.ldDtVx (opX op))
  else if key = 0xF018#16 then .ok (.ldStVx (opX op))
  else if key = 0xF01E#16 then .ok (.addIVx (opX op))
  else if key = 0xF029#16 then .ok (.ldFVx (opX op))
  else if key = 0xF033#16 then .ok (.ldBVx (opX op))
  else if key = 0xF055#16 then .ok (.ldMemIVx (opX op))
  else if key = 0xF065#16 then .ok (.ldVxMemI (opX op))
  else .error (.unknownOpcode op)

/-- Two bytes make an opcode, the byte at the lower address being bits 15:8 (20_memory.md R56). -/
def opcodeOfBytes (hi lo : Byte) : Word := hi ++ lo

/-- An opcode as the two bytes it is stored in, lowest address first (R56). -/
def bytesOfOpcode (op : Word) : List Byte := [op.extractLsb' 8 8, op.extractLsb' 0 8]

/-- The decoder on bytes: the first two are the instruction, the rest is handed back (R80). -/
def decodeBytes : List Byte → Except DecodeError (Instr × List Byte)
  | hi :: lo :: rest =>
    match decode (opcodeOfBytes hi lo) with
    | .ok i => .ok (i, rest)
    | .error e => .error e
  | _ => .error .truncated

/-- What the decoder reads from an instruction whose bits are `w`, numbered as spec/opcode_table.json numbers them: bit
0 is the opcode's bit 0 (R7), and every bit from `nbits` on is 0. -/
def decodeTableWord (nbits w : Nat) : Option Instr :=
  match decodeBytes (bytesOfOpcode (BitVec.ofNat 16 (w % 2 ^ nbits))) with
  | .ok (i, _) => some i
  | .error _ => none

/-- A field at bits 11:8 of an opcode. -/
def atX (x : Nibble) : Word := x.setWidth 16 <<< 8

/-- A field at bits 7:4 of an opcode. -/
def atY (y : Nibble) : Word := y.setWidth 16 <<< 4

/-- A field at bits 3:0 of an opcode. -/
def atN (n : Nibble) : Word := n.setWidth 16

/-- A field at bits 11:0 of an opcode. -/
def atAddr (addr : Addr12) : Word := addr.setWidth 16

/-- A field at bits 7:0 of an opcode. -/
def atKk (kk : Byte) : Word := kk.setWidth 16

/-- The opcode of an instruction, from the patterns of R84: the row's fixed bits with its fields in their places (R81),
the ignored nibbles as the instruction holds them. -/
def encode : Instr → Word
  | .cls ign => 0x00E0#16 ||| atX ign
  | .ret ign => 0x00EE#16 ||| atX ign
  | .jmp addr => 0x1000#16 ||| atAddr addr
  | .call addr => 0x2000#16 ||| atAddr addr
  | .seVxKk x kk => 0x3000#16 ||| atX x ||| atKk kk
  | .sneVxKk x kk => 0x4000#16 ||| atX x ||| atKk kk
  | .seVxVy x y ign => 0x5000#16 ||| atX x ||| atY y ||| atN ign
  | .ldVxKk x kk => 0x6000#16 ||| atX x ||| atKk kk
  | .addVxKk x kk => 0x7000#16 ||| atX x ||| atKk kk
  | .ldVxVy x y => 0x8000#16 ||| atX x ||| atY y
  | .orVxVy x y => 0x8001#16 ||| atX x ||| atY y
  | .andVxVy x y => 0x8002#16 ||| atX x ||| atY y
  | .xorVxVy x y => 0x8003#16 ||| atX x ||| atY y
  | .addVxVy x y => 0x8004#16 ||| atX x ||| atY y
  | .subVxVy x y => 0x8005#16 ||| atX x ||| atY y
  | .shrVx x ign => 0x8006#16 ||| atX x ||| atY ign
  | .subnVxVy x y => 0x8007#16 ||| atX x ||| atY y
  | .shlVx x ign => 0x800E#16 ||| atX x ||| atY ign
  | .sneVxVy x y ign => 0x9000#16 ||| atX x ||| atY y ||| atN ign
  | .ldIAddr addr => 0xA000#16 ||| atAddr addr
  | .jpV0Addr addr => 0xB000#16 ||| atAddr addr
  | .rndVxKk x kk => 0xC000#16 ||| atX x ||| atKk kk
  | .drwVxVyN x y n => 0xD000#16 ||| atX x ||| atY y ||| atN n
  | .skpVx x => 0xE09E#16 ||| atX x
  | .sknpVx x => 0xE0A1#16 ||| atX x
  | .ldVxDt x => 0xF007#16 ||| atX x
  | .ldVxK x => 0xF00A#16 ||| atX x
  | .ldDtVx x => 0xF015#16 ||| atX x
  | .ldStVx x => 0xF018#16 ||| atX x
  | .addIVx x => 0xF01E#16 ||| atX x
  | .ldFVx x => 0xF029#16 ||| atX x
  | .ldBVx x => 0xF033#16 ||| atX x
  | .ldMemIVx x => 0xF055#16 ||| atX x
  | .ldVxMemI x => 0xF065#16 ||| atX x

/-- The (mask, match) pairs of R84, row by row: an opcode is the row's instruction iff `op & mask = match` (R83). -/
def opcodeRows : List (Word × Word) :=
  [(0xF0FF, 0x00E0), (0xF0FF, 0x00EE), (0xF000, 0x1000), (0xF000, 0x2000), (0xF000, 0x3000), (0xF000, 0x4000),
   (0xF000, 0x5000), (0xF000, 0x6000), (0xF000, 0x7000), (0xF00F, 0x8000), (0xF00F, 0x8001), (0xF00F, 0x8002)] ++
  [(0xF00F, 0x8003), (0xF00F, 0x8004), (0xF00F, 0x8005), (0xF00F, 0x8006), (0xF00F, 0x8007), (0xF00F, 0x800E),
   (0xF000, 0x9000), (0xF000, 0xA000), (0xF000, 0xB000), (0xF000, 0xC000), (0xF000, 0xD000), (0xF0FF, 0xE09E)] ++
  [(0xF0FF, 0xE0A1), (0xF0FF, 0xF007), (0xF0FF, 0xF00A), (0xF0FF, 0xF015), (0xF0FF, 0xF018), (0xF0FF, 0xF01E),
   (0xF0FF, 0xF029), (0xF0FF, 0xF033), (0xF0FF, 0xF055), (0xF0FF, 0xF065)]

end Sys2Proof
end

