-- ==== Sys2Proof/Machine/State.lean ====
section
/-! DEFINITION. The state of 10_state.md R20 as plain data, the error values of 60_exceptions.md R224, and the state
after `reset` of the empty image (R44, 70_reset_and_hazards.md R260). -/

namespace Sys2Proof.Machine

/-- The reasons of `ExecuteError` (R223, R224). -/
inductive ExecuteReason where
  /-- `RET` on an empty call stack (R110). -/
  | stackUnderflow
  /-- `CALL` when 16 entries are saved (R113, D5; log 8). -/
  | stackOverflow
  /-- `DRW`, `LD B,Vx`, `LD [I],Vx` or `LD Vx,[I]` on a range that reaches past 0xFFF (R166). -/
  | memoryOutOfBounds
  deriving DecidableEq, Repr

/-- The closed type of error values of R224. A step that raises one writes it into the latch `State.fault` and answers a
NEXT state (R37, R41); no step answers `Host.Outcome.fault` (log 1). Each of them is safe: it is the spec's own effect. -/
inductive Fault where
  /-- Raised by the fetch of a step whose `pc` is above 0x0FFE; records `pc` (R221). Safe. -/
  | fetchError (pc : Word)
  /-- Raised by the decode of a step whose opcode is in no row; records the opcode (R222). Safe. -/
  | unknownOpcode (opcode : Word)
  /-- Raised by `RET`, `CALL`, `DRW`, `LD B`, `LD [I]`, `LD Vx,[I]`; records the opcode and the reason (R223). Safe. -/
  | executeError (opcode : Word) (reason : ExecuteReason)
  deriving DecidableEq, Repr

/-- Why an image is not loaded (R262). -/
inductive LoadError where
  /-- `LoadError::TooLarge`: the image has more than 3584 bytes. -/
  | tooLarge
  deriving DecidableEq, Repr

/-- Where the model gives no meaning. -/
inductive Refusal where
  /-- An instruction without a meaning yet; answered by an arm of `exec` only, and no arm is left that does. Safe. -/
  | notModelled (mnemonic : String)
  /-- The host resets the machine with an image that `reset` refuses, and no machine results (R262, U13; log 23).
  Answered by a step whose turn of the host holds such a reset, by no instruction. Safe. -/
  | imageRefused (reason : LoadError)
  deriving DecidableEq, Repr

/-- What the host can do to the core between two cycles (R39, R42, R260). -/
inductive HostEvent where
  /-- `set_key(k, b)`: key `k` becomes pressed or released (R35, R42). -/
  | setKey (key : Nibble) (pressed : Bool)
  /-- `reset(image)` (R260). -/
  | reset (image : List Byte)
  deriving DecidableEq, Repr

/-- Memory: (address, byte) pairs, addresses strictly rising, each below 4096, no byte equal to what an unlisted address
reads as (`Memory.wf` in Machine/Ops.lean; log 20). -/
abbrev Memory := List Host.Cell

/-- The display: 32 rows of 64 pixels, row 0 and column 0 first; `true` is a set pixel (R29). -/
abbrev FrameBuffer := Vector (Vector Bool Config.dispW) Config.dispH

/-- The state: the ten items of R20 and two fields of the model's own. -/
structure State where
  /-- `V[0..15]`, the general registers; `V[15]` is the flag (R21, R22). -/
  v : Vector Byte Config.nReg
  /-- `I`, the index register (R24). -/
  i : Word
  /-- `pc`, during an instruction the address of its first byte (R25). -/
  pc : Word
  /-- The call stack, the newest entry last (R26). -/
  stack : List Word
  /-- `DT`, the delay timer (R27). -/
  dt : Byte
  /-- `ST`, the sound timer (R27). -/
  st : Byte
  /-- `mem` (R50). -/
  mem : Memory
  /-- `FB`, the display (R29). -/
  fb : FrameBuffer
  /-- `K`, the key latch: `true` is pressed (R35). -/
  keys : Vector Bool Config.nKeys
  /-- The error latch (R37). -/
  fault : Option Fault
  /-- The model's own: how many random bytes have been drawn, the argument of `Config.draw8` (R38; log 3). -/
  draws : Nat
  /-- The model's own: what the host does before each coming cycle, the nearest first; after the last one it does
  nothing more (R42; log 2). -/
  hostTurns : List (List HostEvent)
  deriving DecidableEq, Repr

/-- The machine right after `reset` of the empty image (R44): memory lists nothing, so every address reads as its reset
content. `draws` and `hostTurns` are DESIGN CHOICE (logs 2 and 3); how a program comes in is log 22. -/
def State.reset : State where
  v := Vector.replicate Config.nReg 0
  i := 0
  pc := BitVec.ofNat 16 Config.progBase
  stack := []
  dt := 0
  st := 0
  mem := []
  fb := Vector.replicate Config.dispH (Vector.replicate Config.dispW false)
  keys := Vector.replicate Config.nKeys false
  fault := none
  draws := 0
  hostTurns := []

end Sys2Proof.Machine
end

