-- ==== Sys2Proof/Machine/Ops.lean ====
section
/-! DEFINITION. The named operations on the state: registers, stack, memory, timers, display, keys, the random draw,
raising an error, the ends of a step, and what the host does (10_state.md, 20_memory.md, 60_exceptions.md,
70_reset_and_hazards.md). -/

namespace Sys2Proof.Machine

/-! ## Registers (R8, R21, R24, R25, R27) -/

/-- `V[r]`. -/
def State.getV (s : State) (r : Nibble) : Byte := s.v[r.toNat]'r.isLt

/-- `V[r] <- b`; every register is an ordinary one (R21). -/
def State.setV (s : State) (r : Nibble) (b : Byte) : State := { s with v := s.v.set r.toNat b r.isLt }

/-- `I <- a`. -/
def State.setI (s : State) (a : Word) : State := { s with i := a }

/-- `pc <- a`. -/
def State.setPc (s : State) (a : Word) : State := { s with pc := a }

/-- `DT <- b`. -/
def State.setDt (s : State) (b : Byte) : State := { s with dt := b }

/-- `ST <- b`. -/
def State.setSt (s : State) (b : Byte) : State := { s with st := b }

/-! ## The call stack (R26) -/

/-- `push(a)`: appended at the end. -/
def State.push (s : State) (a : Word) : State := { s with stack := s.stack ++ [a] }

/-- `pop()`: the last element and the state without it; none when the stack is empty. -/
def State.pop (s : State) : Option (Word × State) :=
  match s.stack.getLast? with
  | some a => some (a, { s with stack := s.stack.dropLast })
  | none => none

/-! ## Memory (R50 to R54, R59) -/

/-- What an address reads as while nothing else is listed for it: its content after `reset` of the empty image, the font
at 0x000 to 0x04F and 0 elsewhere (R44, R52; log 20). -/
def Memory.unlisted (a : Nat) : Byte := Config.font.getD a 0

/-- The byte at an address (R54, R60). Outside 0x000 to 0xFFF, where no rule reads, it is 0 (log 19). -/
def Memory.read : Memory → Nat → Byte
  | [], a => Memory.unlisted a
  | (k, b) :: m, a => if k = a then b else Memory.read m a

/-- A cell in front of cells at higher addresses, left out when it holds what an unlisted address reads as. -/
def Memory.cons (a : Nat) (b : Byte) (m : Memory) : Memory := if b = Memory.unlisted a then m else (a, b) :: m

/-- The cells with byte `b` at address `a`, in canonical form. -/
def Memory.put : Memory → Nat → Byte → Memory
  | [], a, b => Memory.cons a b []
  | (k, c) :: m, a, b =>
    if k < a then (k, c) :: Memory.put m a b
    else if k = a then Memory.cons a b m
    else Memory.cons a b ((k, c) :: m)

/-- A store: no address is protected (R61). Outside 0x000 to 0xFFF, where no rule writes, nothing is stored (log 19). -/
def Memory.write (m : Memory) (a : Nat) (b : Byte) : Memory :=
  if a < Config.memSize then Memory.put m a b else m

/-- Addresses from `low` on, strictly rising, inside the space, and no byte equal to what is unlisted. -/
def Memory.wfFrom : Nat → Memory → Bool
  | _, [] => true
  | low, (k, b) :: m =>
    decide (low ≤ k) && decide (k < Config.memSize) && decide (b ≠ Memory.unlisted k) && Memory.wfFrom (k + 1) m

/-- The canonical form of memory (log 20). -/
def Memory.wf (m : Memory) : Bool := Memory.wfFrom 0 m

/-- `MemRead(a, 1)`. -/
def State.memRead (s : State) (a : Nat) : Byte := Memory.read s.mem a

/-- `MemWrite(a, 1, b)`. -/
def State.memWrite (s : State) (a : Nat) (b : Byte) : State := { s with mem := Memory.write s.mem a b }

/-- The `n` bytes from address `a` on, in ascending order (R59). -/
def State.bytesAt (s : State) (a : Nat) : Nat → List Byte
  | 0 => []
  | n + 1 => s.memRead a :: s.bytesAt (a + 1) n

/-- Stores of consecutive bytes from address `a` on, in ascending order (R59). -/
def State.writeBytes (s : State) (a : Nat) : List Byte → State
  | [] => s
  | b :: bs => (s.memWrite a b).writeBytes (a + 1) bs

/-- Writes of consecutive registers from `V[j]` on (R165). -/
def State.setRegs (s : State) (j : Nat) : List Byte → State
  | [] => s
  | b :: bs => (s.setV (BitVec.ofNat 4 j) b).setRegs (j + 1) bs

/-! ## Timers (R27, R28) -/

/-- One timer's tick: down by one, never below zero. -/
def tickDown (b : Byte) : Byte := if b > 0 then b - 1 else b

/-- `TimerTick()`: both timers, each by itself. -/
def State.timerTick (s : State) : State := { s with dt := tickDown s.dt, st := tickDown s.st }

/-! ## Display (R29, R33, R34) -/

/-- `FB[y][x]`, for a row below 32 and a column below 64; coordinates are reduced as `flip` reduces them. -/
def FrameBuffer.pixel (fb : FrameBuffer) (x y : Nat) : Bool :=
  (fb[y % Config.dispH]'(Nat.mod_lt y (by decide)))[x % Config.dispW]'(Nat.mod_lt x (by decide))

/-- `FB[y mod 32][x mod 64] <- b`. -/
def FrameBuffer.setPixel (fb : FrameBuffer) (x y : Nat) (b : Bool) : FrameBuffer :=
  fb.set (y % Config.dispH)
    ((fb[y % Config.dispH]'(Nat.mod_lt y (by decide))).set (x % Config.dispW) b (Nat.mod_lt x (by decide)))
    (Nat.mod_lt y (by decide))

/-- `flip(x, y)`: the display with the pixel toggled, and whether it was set before (R33). -/
def FrameBuffer.flip (fb : FrameBuffer) (x y : Nat) : FrameBuffer × Bool :=
  (fb.setPixel x y (!fb.pixel x y), fb.pixel x y)

/-- `clear()`: every pixel 0 (R34). -/
def FrameBuffer.clear (_ : FrameBuffer) : FrameBuffer :=
  Vector.replicate Config.dispH (Vector.replicate Config.dispW false)

/-- `FB <- fb`. -/
def State.setFb (s : State) (fb : FrameBuffer) : State := { s with fb := fb }

/-! ## Keys (R35) -/

/-- `key(k)`: the level of key `k`. -/
def State.key (s : State) (k : Nibble) : Bool := s.keys[k.toNat]'k.isLt

/-- `set_key(k, b)`, the host's (R42). -/
def State.setKey (s : State) (k : Nibble) (b : Bool) : State := { s with keys := s.keys.set k.toNat b k.isLt }

/-- The first pressed key of a list whose first entry is key `k`. -/
def firstPressed : Nat → List Bool → Option Nibble
  | _, [] => none
  | k, b :: bs => if b then some (BitVec.ofNat 4 k) else firstPressed (k + 1) bs

/-- `min { k | K[k] = 1 }`, none when no key is pressed (R202, R209). -/
def State.lowestKey (s : State) : Option Nibble := firstPressed 0 s.keys.toList

/-! ## The random draw (R38, R146) -/

/-- `draw8()`: the next free byte, and the state that has drawn it (log 3). -/
def State.draw (s : State) : Byte × State := (Config.draw8 s.draws, { s with draws := s.draws + 1 })

/-! ## The ends of a step (R25, R41) and raising an error (R37, R228, R229) -/

/-- The outcome of a step or of an instruction. -/
abbrev Result := Host.Outcome State Fault Refusal

/-- The state with the error latched, everything else as it is (R229). -/
def State.latch (s : State) (f : Fault) : State := { s with fault := some f }

/-- `raise f`: the one way an error is taken. It writes `fault` and nothing else, `pc` stays at the failing instruction,
and control goes nowhere inside the machine (R41, R228, R229). There is no return from it (R230): only `reset` clears
`fault`. -/
def State.raise (s : State) (f : Fault) : Result := .next (s.latch f)

/-- `npc <- a`: the instruction ends with the next step at `a`. -/
def State.continueAt (s : State) (a : Word) : Result := .next (s.setPc a)

/-- `npc <- pc + 2`, for an instruction that does not redirect (R25). -/
def State.continueNext (s : State) : Result := s.continueAt (s.pc + BitVec.ofNat 16 Config.instrBytes)

/-- A skip: `pc + 4` when taken, else `pc + 2`; the skipped bytes are not looked at (R25, R115). -/
def State.skipIf (s : State) (taken : Bool) : Result :=
  if taken then s.continueAt (s.pc + BitVec.ofNat 16 (2 * Config.instrBytes)) else s.continueNext

/-- Whether the `count` bytes from address `a` on reach past 0xFFF; no bytes reach nowhere (R166, R181, R185). -/
def reachesPastMemory (a count : Nat) : Bool := decide (0 < count ∧ Config.memSize ≤ a + (count - 1))

/-- The check of R166: an instruction that uses `count` bytes from `I` on raises before its first access when they reach
past 0xFFF, and else goes on. -/
def State.withinBounds (s : State) (count : Nat) (opcode : Word) (go : Result) : Result :=
  if reachesPastMemory s.i.toNat count then s.raise (.executeError opcode .memoryOutOfBounds) else go

/-! ## Fetch (R41, R56) -/

/-- Whether fetch fails: `pc` above 0x0FFE (R221). -/
def State.fetchFails (s : State) : Bool := decide (0x0FFE < s.pc.toNat)

/-- The opcode at `pc`, big-endian, straight from `mem` (R56, R66). -/
def State.fetchOpcode (s : State) : Word :=
  opcodeOfBytes (s.memRead s.pc.toNat) (s.memRead (s.pc.toNat + 1))

/-! ## What the host does between cycles (R39, R42, R260 to R262) -/

/-- `reset(image)` on a machine that is new: refused when the image is too long, else R44 with the image at 0x200 on. -/
def State.resetWith (image : List Byte) : Except LoadError State :=
  if imageWellFormed image then .ok (State.reset.writeBytes Config.progBase image) else .error .tooLarge

/-- `reset(image)` on a running machine: nothing of the hardware's state survives (R260). The model's own fields are the
environment's and go on: later draws are other draws, and the host's later turns still come (logs 2, 3 and 23). -/
def State.restart (s : State) (image : List Byte) : Except LoadError State :=
  match State.resetWith image with
  | .ok r => .ok { r with draws := s.draws, hostTurns := s.hostTurns }
  | .error e => .error e

/-- One event of the host. -/
def State.hostEvent (s : State) : HostEvent → Except LoadError State
  | .setKey k b => .ok (s.setKey k b)
  | .reset image => s.restart image

/-- Events of the host, in order. -/
def State.hostEvents (s : State) : List HostEvent → Except LoadError State
  | [] => .ok s
  | e :: es =>
    match s.hostEvent e with
    | .ok s' => s'.hostEvents es
    | .error r => .error r

/-- The host's turn before a cycle: the events that stand first in `hostTurns`; none when no turn is left (log 2). -/
def State.hostTurn (s : State) : Except LoadError State :=
  match s.hostTurns with
  | [] => .ok s
  | es :: rest => State.hostEvents { s with hostTurns := rest } es

end Sys2Proof.Machine
end

