-- ==== Sys2Proof/Machine/Operands.lean ====
section
/-! DEFINITION. The operand forms: how an instruction's fields and registers become addresses, keys, digits and sprite
pixels (30_encoding.md R89, 42_index_and_memory.md R162 to R166, 43_display.md R181 to R186). -/

namespace Sys2Proof.Machine

/-- `addr` as a value of `pc` or `I`: zero-extended (R89, R160). -/
def addrWord (addr : Addr12) : Word := addr.setWidth 16

/-- The target of `JP V0,addr`: the sum, not reduced modulo 4096 (R114). -/
def offsetTarget (addr : Addr12) (v0 : Byte) : Word := addr.setWidth 16 + v0.setWidth 16

/-- The key that a register selects, `Vx & 0xF` (R200, R201). -/
def keyOf (b : Byte) : Nibble := (b &&& 0x0F#8).setWidth 4

/-- The address of the glyph that a register selects, `(Vx & 0xF) * 5` (R162). -/
def glyphAddress (b : Byte) : Word := (b &&& 0x0F#8).setWidth 16 * 5#16

/-- `I + Vx` modulo 2^16 (R161, D9; log 11). -/
def indexPlus (a : Word) (b : Byte) : Word := a + b.setWidth 16

/-- The three decimal digits of a byte, most significant first (R163, D11; log 12). -/
def bcdDigits (b : Byte) : List Byte := [b / 100#8, b / 10#8 % 10#8, b % 10#8]

/-- `V0` to `Vx`, in ascending order (R164). -/
def State.firstRegs (s : State) (x : Nibble) : List Byte := s.v.toList.take (x.toNat + 1)

/-- How many registers `LD [I],Vx` and `LD Vx,[I]` move: x + 1 (R59). -/
def blockSize (x : Nibble) : Nat := x.toNat + 1

/-- The first `k` columns of a sprite byte `b`, flipped at (`vx` + c, `row`) where bit 7 - c is 1; the flag says whether
any flip unset a pixel (R181, R182). -/
def drawColumns (vx row : Nat) (b : Byte) : Nat → FrameBuffer × Bool → FrameBuffer × Bool
  | 0, acc => acc
  | k + 1, acc =>
    let before := drawColumns vx row b k acc
    if b.getLsbD (7 - k) then
      let flipped := before.1.flip (vx + k) row
      (flipped.1, before.2 || flipped.2)
    else before

/-- The rows of a sprite, one byte each, from display row `row` down (R181). -/
def drawRows (vx : Nat) : Nat → List Byte → FrameBuffer × Bool → FrameBuffer × Bool
  | _, [], acc => acc
  | row, b :: bs, acc => drawRows vx (row + 1) bs (drawColumns vx row b 8 acc)

/-- A sprite drawn at (`vx`, `vy`): the display after it and the collision (R181). -/
def drawSprite (fb : FrameBuffer) (vx vy : Nat) (sprite : List Byte) : FrameBuffer × Bool :=
  drawRows vx vy sprite (fb, false)

end Sys2Proof.Machine
end

