-- ==== Sys2Proof/Machine/ControlFlow.lean ====
section
/-! DEFINITION. The control-transfer instructions (40_control_flow.md R110 to R119), each by its net effect on `pc`. -/

namespace Sys2Proof.Machine

/-- `RET`: to the instruction after the popped CALL; StackUnderflow on an empty stack (R110). -/
def execRet (ign : Nibble) (s : State) : Result :=
  match s.pop with
  | some (a, s') => s'.continueAt (a + BitVec.ofNat 16 Config.instrBytes)
  | none => s.raise (.executeError (encode (.ret ign)) .stackUnderflow)

/-- `JMP addr` (R111). -/
def execJmp (addr : Addr12) (s : State) : Result := s.continueAt (addrWord addr)

/-- `CALL addr`: pushes its own address; StackOverflow when 16 entries are saved (R113, D5; log 8). -/
def execCall (addr : Addr12) (s : State) : Result :=
  if Config.stackDepth ≤ s.stack.length then s.raise (.executeError (encode (.call addr)) .stackOverflow)
  else (s.push s.pc).continueAt (addrWord addr)

/-- `JP V0,addr`: the sum is not reduced modulo 4096 (R114). -/
def execJpV0Addr (addr : Addr12) (s : State) : Result := s.continueAt (offsetTarget addr (s.getV 0))

/-- `SE Vx,kk` (R115). -/
def execSeVxKk (x : Nibble) (kk : Byte) (s : State) : Result := s.skipIf (s.getV x == kk)

/-- `SNE Vx,kk` (R116). -/
def execSneVxKk (x : Nibble) (kk : Byte) (s : State) : Result := s.skipIf (s.getV x != kk)

/-- `SE Vx,Vy`, whatever its ignored low nibble (R117, R85). -/
def execSeVxVy (x y : Nibble) (s : State) : Result := s.skipIf (s.getV x == s.getV y)

/-- `SNE Vx,Vy`, whatever its ignored low nibble (R118, R85). -/
def execSneVxVy (x y : Nibble) (s : State) : Result := s.skipIf (s.getV x != s.getV y)

end Sys2Proof.Machine
end

