-- ==== Sys2Proof/Machine/Flags.lean ====
section
/-! DEFINITION. The flag computations of 41_load_and_alu.md R147 and the order in which flag and result are written
(10_state.md R22, R23; 41_load_and_alu.md R134). -/

namespace Sys2Proof.Machine

/-- A flag as the byte that VF takes: 1 or 0 (R22). -/
def flagByte (f : Bool) : Byte := if f then 1 else 0

/-- Carry of `ADD Vx,Vy`: the true sum exceeds 255 (R139). -/
def carryFlag (a b : Byte) : Bool := decide (255 < a.toNat + b.toNat)

/-- The flag of `SUB` and `SUBN`: the minuend is strictly greater than the subtrahend (R140, R141, C5). -/
def greaterFlag (minuend subtrahend : Byte) : Bool := decide (subtrahend.toNat < minuend.toNat)

/-- The flag of `SHR` and of `SHL`: bit 0 of the value before the shift (R142, R143, C6). -/
def bitZeroFlag (a : Byte) : Bool := a.getLsbD 0

/-- `VF <- f`. -/
def State.setFlag (s : State) (f : Bool) : State := s.setV Config.flagReg (flagByte f)

/-- Flag first, result second: when `x` is 0xF the result stays (R23, R134, D2; log 5). -/
def State.setFlagThen (s : State) (f : Bool) (x : Nibble) (result : Byte) : State := (s.setFlag f).setV x result

end Sys2Proof.Machine
end

