-- ==== Sys2Proof/Machine/Display.lean ====
section
/-! DEFINITION. The display instructions (43_display.md R180 to R187). -/

namespace Sys2Proof.Machine

/-- `CLS`, whatever its ignored nibble; VF is not written (R180, R85). -/
def execCls (s : State) : Result := (s.setFb s.fb.clear).continueNext

/-- `DRW Vx,Vy,n`: both coordinates are read before VF is written, the whole sprite is checked before the first flip
(D13; log 13), and n = 0 draws nothing and checks nothing (R181 to R186, D12; log 13). -/
def execDrwVxVyN (x y n : Nibble) (s : State) : Result :=
  s.withinBounds n.toNat (encode (.drwVxVyN x y n))
    (let drawn := drawSprite s.fb (s.getV x).toNat (s.getV y).toNat (s.bytesAt s.i.toNat n.toNat)
     ((s.setFb drawn.1).setFlag drawn.2).continueNext)

end Sys2Proof.Machine
end

