-- ==== Sys2Proof/Machine/IndexMemory.lean ====
section
/-! DEFINITION. The index-register and memory instructions (42_index_and_memory.md R160 to R166). None changes `I` by
using it as an address (D3; log 6), and a range past 0xFFF raises before the first access (R166, D4; log 7). -/

namespace Sys2Proof.Machine

/-- `LD I,addr` (R160). -/
def execLdIAddr (addr : Addr12) (s : State) : Result := (s.setI (addrWord addr)).continueNext

/-- `ADD I,Vx`: modulo 2^16, no flag, no check (R161, D9; log 11). -/
def execAddIVx (x : Nibble) (s : State) : Result := (s.setI (indexPlus s.i (s.getV x))).continueNext

/-- `LD F,Vx` (R162). -/
def execLdFVx (x : Nibble) (s : State) : Result := (s.setI (glyphAddress (s.getV x))).continueNext

/-- `LD B,Vx`: three digits at I, I + 1, I + 2 (R163, D11; log 12). -/
def execLdBVx (x : Nibble) (s : State) : Result :=
  s.withinBounds 3 (encode (.ldBVx x)) (s.writeBytes s.i.toNat (bcdDigits (s.getV x))).continueNext

/-- `LD [I],Vx`: V0 to Vx at I to I + x (R164). -/
def execLdMemIVx (x : Nibble) (s : State) : Result :=
  s.withinBounds (blockSize x) (encode (.ldMemIVx x)) (s.writeBytes s.i.toNat (s.firstRegs x)).continueNext

/-- `LD Vx,[I]`: V0 to Vx from I to I + x, the inverse of the store (R165, C8, D10; log 12). -/
def execLdVxMemI (x : Nibble) (s : State) : Result :=
  s.withinBounds (blockSize x) (encode (.ldVxMemI x))
    (s.setRegs 0 (s.bytesAt s.i.toNat (blockSize x))).continueNext

end Sys2Proof.Machine
end

