-- ==== Sys2Proof/Machine/KeypadTimers.lean ====
section
/-! DEFINITION. The keypad and timer instructions (44_keypad_and_timers.md R200 to R209). None raises. -/

namespace Sys2Proof.Machine

/-- `SKP Vx`: on the level of key `Vx & 0xF` (R200). -/
def execSkpVx (x : Nibble) (s : State) : Result := s.skipIf (s.key (keyOf (s.getV x)))

/-- `SKNP Vx` (R201). -/
def execSknpVx (x : Nibble) (s : State) : Result := s.skipIf (!s.key (keyOf (s.getV x)))

/-- `LD Vx,K`: no key pressed, and the same instruction runs again in the next step with nothing changed; else the
lowest pressed key, on its level (R202, R207 to R209, D3; log 6). -/
def execLdVxK (x : Nibble) (s : State) : Result :=
  match s.lowestKey with
  | none => s.continueAt s.pc
  | some k => (s.setV x (k.setWidth 8)).continueNext

/-- `LD Vx,DT`: the value after this cycle's tick (R203). -/
def execLdVxDt (x : Nibble) (s : State) : Result := (s.setV x s.dt).continueNext

/-- `LD DT,Vx` (R204). -/
def execLdDtVx (x : Nibble) (s : State) : Result := (s.setDt (s.getV x)).continueNext

/-- `LD ST,Vx` (R205). -/
def execLdStVx (x : Nibble) (s : State) : Result := (s.setSt (s.getV x)).continueNext

end Sys2Proof.Machine
end

