-- ==== Sys2Proof/Machine/LoadAlu.lean ====
section
/-! DEFINITION. The register load, arithmetic, logic, shift and random instructions (41_load_and_alu.md R130 to R147).
Each ends at `pc + 2` and raises nothing. -/

namespace Sys2Proof.Machine

/-- `LD Vx,kk` (R130). -/
def execLdVxKk (x : Nibble) (kk : Byte) (s : State) : Result := (s.setV x kk).continueNext

/-- `ADD Vx,kk`: modulo 256, no flag (R131). -/
def execAddVxKk (x : Nibble) (kk : Byte) (s : State) : Result := (s.setV x (s.getV x + kk)).continueNext

/-- `LD Vx,Vy` (R135). -/
def execLdVxVy (x y : Nibble) (s : State) : Result := (s.setV x (s.getV y)).continueNext

/-- `OR Vx,Vy`: VF is not touched (R136, D3; log 6). -/
def execOrVxVy (x y : Nibble) (s : State) : Result := (s.setV x (s.getV x ||| s.getV y)).continueNext

/-- `AND Vx,Vy`: VF is not touched (R137, D3; log 6). -/
def execAndVxVy (x y : Nibble) (s : State) : Result := (s.setV x (s.getV x &&& s.getV y)).continueNext

/-- `XOR Vx,Vy`: VF is not touched (R138, D3; log 6). -/
def execXorVxVy (x y : Nibble) (s : State) : Result := (s.setV x (s.getV x ^^^ s.getV y)).continueNext

/-- `ADD Vx,Vy`: VF is the carry (R139). -/
def execAddVxVy (x y : Nibble) (s : State) : Result :=
  (s.setFlagThen (carryFlag (s.getV x) (s.getV y)) x (s.getV x + s.getV y)).continueNext

/-- `SUB Vx,Vy`: VF is 1 when Vx is strictly greater (R140, C5). -/
def execSubVxVy (x y : Nibble) (s : State) : Result :=
  (s.setFlagThen (greaterFlag (s.getV x) (s.getV y)) x (s.getV x - s.getV y)).continueNext

/-- `SUBN Vx,Vy`: VF is 1 when Vy is strictly greater; the result goes to Vx (R141, C5). -/
def execSubnVxVy (x y : Nibble) (s : State) : Result :=
  (s.setFlagThen (greaterFlag (s.getV y) (s.getV x)) x (s.getV y - s.getV x)).continueNext

/-- `SHR Vx`: VF is bit 0 of the old Vx, and Vx is read again after that write (R142, R134, D2; log 5). -/
def execShrVx (x : Nibble) (s : State) : Result :=
  let s' := s.setFlag (bitZeroFlag (s.getV x))
  (s'.setV x (s'.getV x >>> 1)).continueNext

/-- `SHL Vx`: VF is bit 0 of the old Vx, not bit 7, and Vx is read again after that write (R143, R134, C6, D2; log 5). -/
def execShlVx (x : Nibble) (s : State) : Result :=
  let s' := s.setFlag (bitZeroFlag (s.getV x))
  (s'.setV x (s'.getV x <<< 1)).continueNext

/-- `RND Vx,kk`: a fresh free byte under the mask (R145, R146, D15; log 3). -/
def execRndVxKk (x : Nibble) (kk : Byte) (s : State) : Result :=
  let drawn := s.draw
  (drawn.2.setV x (drawn.1 &&& kk)).continueNext

end Sys2Proof.Machine
end

