-- ==== Sys2Proof/Machine/Cycle.lean ====
section
/-! DEFINITION. One step of the core, one cycle (10_state.md R40, R41), and one turn of the host before it (R42). -/

namespace Sys2Proof.Machine

/-- One step: fetch, decode, execute, each checked before the next (R41, R226). -/
def coreStep (s : State) : Result :=
  if s.fetchFails then s.raise (.fetchError s.pc)
  else
    match decode s.fetchOpcode with
    | .ok i => exec i s
    | .error _ => s.raise (.unknownOpcode s.fetchOpcode)

/-- Steps of one cycle, one after the other; once an error is latched the remaining ones are not run (R40). -/
def coreSteps : Nat → State → Result
  | 0, s => .next s
  | k + 1, s =>
    match s.fault with
    | some _ => .next s
    | none =>
      match coreStep s with
      | .next s' => coreSteps k s'
      | .fault f => .fault f
      | .refused r => .refused r

/-- One `cycle` event: nothing on a faulted core; else one tick, then `STEPS_PER_CYCLE` steps (R40, R37). -/
def cycle (s : State) : Result :=
  match s.fault with
  | some _ => .next s
  | none => coreSteps Config.stepsPerCycle s.timerTick

/-- One turn of the host, then one `cycle` event; refused by name when the host resets with an image that is too long
(R42, R262; logs 2 and 23). -/
def hostThenCycle (s : State) : Result :=
  match s.hostTurn with
  | .ok s' => cycle s'
  | .error r => .refused (.imageRefused r)

/-- The state with an opcode stored at `pc`, big-endian, where fetch reads it (R56). -/
def State.withOpcodeAtPc (s : State) (op : Word) : State := s.writeBytes s.pc.toNat (bytesOfOpcode op)

end Sys2Proof.Machine
end

