-- ==== Sys2Proof/Machine/Step.lean ====
section
/-! DEFINITION. The step of the machine: one turn of the host and one cycle of the core (10_state.md R40, R42). -/

namespace Sys2Proof.Machine

/-- One step of the machine. -/
def step (s : State) : Host.Outcome State Fault Refusal := hostThenCycle s

/-- The state with the instruction of bits `w` stored at `pc` (bit 0 the opcode's bit 0, bits from `nbits` on zero), so
that the next step fetches and runs it: a machine runs what stands at `pc` once `fault` is none, as after reset. Nothing
else changes (log 22). -/
def State.withFetchWord (s : State) (nbits w : Nat) : State :=
  s.withOpcodeAtPc (BitVec.ofNat 16 (w % 2 ^ nbits))

end Sys2Proof.Machine
end

