-- ==== Sys2Proof/Safety.lean ====
section
/-! DEFINITION. The terms that claims use: the invariant of the machine, when a program has finished, which parts of
the state an instruction may change, and runs of instructions. -/

namespace Sys2Proof

/-- The general register that an instruction names as the one it writes, if it does; `LD Vx,[I]` names the last of
several. -/
def Instr.destination : Instr → Option Nibble
  | .cls _ => none
  | .ret _ => none
  | .jmp _ => none
  | .call _ => none
  | .seVxKk _ _ => none
  | .sneVxKk _ _ => none
  | .seVxVy _ _ _ => none
  | .ldVxKk x _ => some x
  | .addVxKk x _ => some x
  | .ldVxVy x _ => some x
  | .orVxVy x _ => some x
  | .andVxVy x _ => some x
  | .xorVxVy x _ => some x
  | .addVxVy x _ => some x
  | .subVxVy x _ => some x
  | .shrVx x _ => some x
  | .subnVxVy x _ => some x
  | .shlVx x _ => some x
  | .sneVxVy _ _ _ => none
  | .ldIAddr _ => none
  | .jpV0Addr _ => none
  | .rndVxKk x _ => some x
  | .drwVxVyN _ _ _ => none
  | .skpVx _ => none
  | .sknpVx _ => none
  | .ldVxDt x => some x
  | .ldVxK x => some x
  | .ldDtVx _ => none
  | .ldStVx _ => none
  | .addIVx _ => none
  | .ldFVx _ => none
  | .ldBVx _ => none
  | .ldMemIVx _ => none
  | .ldVxMemI x => some x

/-- Whether an instruction writes VF as a flag (R22). -/
def Instr.writesFlag (i : Instr) : Prop :=
  (∃ x y, i = .addVxVy x y) ∨ (∃ x y, i = .subVxVy x y) ∨ (∃ x y, i = .subnVxVy x y) ∨
  (∃ x ign, i = .shrVx x ign) ∨ (∃ x ign, i = .shlVx x ign) ∨ (∃ x y n, i = .drwVxVyN x y n)

end Sys2Proof

namespace Sys2Proof.Machine

/-- The invariant of the machine: memory is canonical, at most 16 return addresses are saved, each the address of an
instruction that was fetched, and `pc` is at most 0x10FE, the largest value any rule can give it (R25, R26, R110). -/
abbrev State.Inv (s : State) : Prop :=
  Memory.wf s.mem = true ∧ s.stack.length ≤ Config.stackDepth ∧
    (s.stack.all fun a => decide (a.toNat ≤ 0x0FFE)) = true ∧ s.pc.toNat ≤ 0x10FE

/-- A run is safe while no error is latched (R37). -/
abbrev State.Running (s : State) : Prop := s.fault = none

/-- The program has finished by the parking idiom: no error, and a jump to itself at `pc` (R266). -/
abbrev State.Parked (s : State) : Prop :=
  s.fault = none ∧ s.pc.toNat ≤ 0x0FFE ∧ ∃ addr : Addr12, decode s.fetchOpcode = .ok (.jmp addr) ∧ addrWord addr = s.pc

/-- Which parts of the state may change; `pc` is not among them, a claim says where it goes. -/
structure Effects where
  /-- The general registers that may change. -/
  regs : Nibble → Bool := fun _ => false
  /-- The addresses whose bytes may change. -/
  bytes : Nat → Bool := fun _ => false
  /-- Whether `I` may. -/
  index : Bool := false
  /-- Whether the call stack may. -/
  stack : Bool := false
  /-- Whether `DT` may. -/
  delay : Bool := false
  /-- Whether `ST` may. -/
  sound : Bool := false
  /-- Whether the display may. -/
  display : Bool := false
  /-- Whether the count of random draws may. -/
  draws : Bool := false

/-- Everything that the effects do not name is the same in `s` and `t`. The key latch, the error latch and the host's
turns are never named: no instruction that ends without an error changes them. -/
def Effects.Only (e : Effects) (s t : State) : Prop :=
  (∀ r, e.regs r = false → t.getV r = s.getV r) ∧
  (∀ a, e.bytes a = false → t.memRead a = s.memRead a) ∧
  (e.index = false → t.i = s.i) ∧
  (e.stack = false → t.stack = s.stack) ∧
  (e.delay = false → t.dt = s.dt) ∧
  (e.sound = false → t.st = s.st) ∧
  (e.display = false → t.fb = s.fb) ∧
  (e.draws = false → t.draws = s.draws) ∧
  t.keys = s.keys ∧ t.fault = s.fault ∧ t.hostTurns = s.hostTurns

/-- Nothing but `pc` changes. -/
def Effects.none : Effects := {}

/-- Only register `x` changes. -/
def Effects.reg (x : Nibble) : Effects := { regs := fun r => r == x }

/-- Only register `x` and the flag register change. -/
def Effects.regAndFlag (x : Nibble) : Effects := { regs := fun r => r == x || r == Config.flagReg }

/-- Only the `count` bytes from address `a` on change. -/
def Effects.store (a count : Nat) : Effects := { bytes := fun c => decide (a ≤ c) && decide (c < a + count) }

/-- Instructions executed one after the other, `pc` taken as each leaves it; stops where one answers no next state. -/
def execAll : List Instr → State → Result
  | [], s => .next s
  | i :: is, s =>
    match exec i s with
    | .next s' => execAll is s'
    | .fault f => .fault f
    | .refused r => .refused r

/-- `k` timer ticks in a row, one for each of `k` cycles (R28, R270). -/
def timerTicks : Nat → State → State
  | 0, s => s
  | k + 1, s => timerTicks k s.timerTick

/-- Whether a sprite at `I`, `n` bytes high, drawn at (`vx`, `vy`), covers pixel (`x`, `y`) with a 1 bit: row `r`, column
`c` lies at ((vx + c) mod 64, (vy + r) mod 32) and is bit 7 - c of byte `r` (R181 to R183). -/
def State.Covers (s : State) (vx vy n x y : Nat) : Prop :=
  ∃ r c, r < n ∧ c < 8 ∧ (vx + c) % 64 = x ∧ (vy + r) % 32 = y ∧ (s.memRead (s.i.toNat + r)).getLsbD (7 - c) = true

end Sys2Proof.Machine
end

