-- ==== Sys2Proof/Certificates/Slice0/Obligations.lean ====
section
/-! DEFINITION. The statements for the provers. Each docstring names the rule or section of spec/ it formalises. -/

open Sys2Proof Sys2Proof.Machine

/-! ### Encoding -/

/-- Opcodes written out from the patterns of 30_encoding.md R84, at least one for each family; the numbers of the rows
marked G are the spec's general knowledge (D19; log 15). -/
def Obligations.EncodingTableWordsDecode : Prop :=
  decodeTableWord 16 0x00E0 = some (.cls 0) ∧
  decodeTableWord 16 0x00EE = some (.ret 0) ∧
  decodeTableWord 16 0x1204 = some (.jmp 0x204) ∧
  decodeTableWord 16 0x9120 = some (.sneVxVy 1 2 0) ∧
  decodeTableWord 16 0x6009 = some (.ldVxKk 0 9) ∧
  decodeTableWord 16 0x7005 = some (.addVxKk 0 5) ∧
  decodeTableWord 16 0x8AB7 = some (.subnVxVy 0xA 0xB) ∧
  decodeTableWord 16 0xA300 = some (.ldIAddr 0x300) ∧
  decodeTableWord 16 0xF365 = some (.ldVxMemI 3) ∧
  decodeTableWord 16 0xD125 = some (.drwVxVyN 1 2 5) ∧
  decodeTableWord 16 0xE59E = some (.skpVx 5) ∧
  decodeTableWord 16 0xF20A = some (.ldVxK 2) ∧
  decodeTableWord 16 0x0000 = none

/-- No bit of an encoding is dropped: the bytes of an instruction's opcode decode to it, with every operand and every
ignored nibble as it was, whatever bytes follow (30_encoding.md sections 1 and 3). -/
def Obligations.DecodeOfEncodeIsTheInstruction : Prop :=
  ∀ (i : Instr) (rest : List Byte), decodeBytes (bytesOfOpcode (encode i) ++ rest) = .ok (i, rest)

/-- An instruction determines its opcode, ignored bits included, so an error can record the opcode as fetched
(30_encoding.md section 3; log 21). -/
def Obligations.EncodeOfDecodeIsTheOpcode : Prop :=
  ∀ (op : Word) (i : Instr), decode op = .ok i → encode i = op

/-- The unknown opcodes are exactly those that 30_encoding.md section 4 lists group by group (on the opcode numbers of
D19; log 15), and an unknown opcode is refused by its own name. -/
def Obligations.UnknownOpcodesAreThoseListed : Prop :=
  ∀ op : Word, decode op = .error (.unknownOpcode op) ↔
    (op.toNat / 4096 = 0x0 ∧ op.toNat % 256 ∉ [0xE0, 0xEE]) ∨
    (op.toNat / 4096 = 0x8 ∧ op.toNat % 16 ∈ [0x8, 0x9, 0xA, 0xB, 0xC, 0xD, 0xF]) ∨
    (op.toNat / 4096 = 0xE ∧ op.toNat % 256 ∉ [0x9E, 0xA1]) ∨
    (op.toNat / 4096 = 0xF ∧ op.toNat % 256 ∉ [0x07, 0x0A, 0x15, 0x18, 0x1E, 0x29, 0x33, 0x55, 0x65])

/-- R81: the six fields of every opcode, as numbers; none of them depends on which instruction it is. -/
def Obligations.FieldsAreTheMaskedBits : Prop :=
  ∀ op : Word,
    (opGroup op).toNat = op.toNat / 4096 * 4096 ∧
    (opX op).toNat = op.toNat / 256 % 16 ∧
    (opY op).toNat = op.toNat / 16 % 16 ∧
    (opN op).toNat = op.toNat % 16 ∧
    (opAddr op).toNat = op.toNat % 4096 ∧
    (opKk op).toNat = op.toNat % 256

/-- 30_encoding.md R85: the ignored bits select nothing and change no effect; only the opcode that a failing `RET`
records shows them. -/
def Obligations.IgnoredBitsChangeNoEffect : Prop :=
  ∀ (x y a b : Nibble) (s : State),
    exec (.cls a) s = exec (.cls b) s ∧
    (s.stack ≠ [] → exec (.ret a) s = exec (.ret b) s) ∧
    exec (.seVxVy x y a) s = exec (.seVxVy x y b) s ∧
    exec (.sneVxVy x y a) s = exec (.sneVxVy x y b) s ∧
    exec (.shrVx x a) s = exec (.shrVx x b) s ∧
    exec (.shlVx x a) s = exec (.shlVx x b) s

/-! ### The cycle -/

/-- R56: the opcode at `pc` is the byte at the lower address times 256 plus the next byte; bytes 0x60 and 0x09 make
0x6009. -/
def Obligations.FetchIsBigEndian : Prop :=
  (∀ s : State, s.fetchOpcode.toNat = (s.memRead s.pc.toNat).toNat * 256 + (s.memRead (s.pc.toNat + 1)).toNat) ∧
  (∀ s : State, s.memRead s.pc.toNat = 0x60 → s.memRead (s.pc.toNat + 1) = 0x09 → s.fetchOpcode = 0x6009)

/-- 10_state.md section 9: when the bytes at `pc` decode to an instruction, a step is the host's turn, the tick of both
timers and the execution of that instruction, and nothing around it. One step a cycle is the spec's own D1 (log 4), the
host's turn before it the model's (log 2). -/
def Obligations.StepRunsTheDecodedInstruction : Prop :=
  ∀ (s s' : State) (i : Instr), s.hostTurn = .ok s' → s'.fault = none → s'.pc.toNat ≤ 0x0FFE →
    decodeBytes (s'.bytesAt s'.pc.toNat 2) = .ok (i, []) →
    step s = exec i s'.timerTick

/-- R28: each timer goes down by one when it is above zero, each by itself, and nothing else changes; it happens once at
the start of every cycle of a running core, before any of its steps fetches. -/
def Obligations.TimersTickOnceACycle : Prop :=
  ∀ s : State,
    s.timerTick.dt.toNat = (if 0 < s.dt.toNat then s.dt.toNat - 1 else 0) ∧
    s.timerTick.st.toNat = (if 0 < s.st.toNat then s.st.toNat - 1 else 0) ∧
    ({ delay := true, sound := true : Effects }).Only s s.timerTick ∧ s.timerTick.pc = s.pc ∧
    (s.fault = none → cycle s = coreSteps Config.stepsPerCycle s.timerTick)

/-- 10_state.md section 4 and 70_reset_and_hazards.md section 3: after k ticks a timer is down by k, and never below
zero. -/
def Obligations.TimersReachZeroAndStay : Prop :=
  ∀ (k : Nat) (s : State),
    (timerTicks k s).dt.toNat = s.dt.toNat - k ∧ (timerTicks k s).st.toNat = s.st.toNat - k ∧
    (timerTicks k s).pc = s.pc ∧ ({ delay := true, sound := true : Effects }).Only s (timerTicks k s)

/-- 10_state.md section 8 (the spec's own latch, D16; log 1): a cycle on a faulted core changes nothing, and neither does
a step in which the host does nothing. A step in which the host only sets keys leaves the state after that turn, the same
error still latched (the host's turn is the model's; log 2); what a reset does is `ResetLeavesEveryValue`. -/
def Obligations.FaultedCoreIgnoresCycle : Prop :=
  ∀ (s : State) (f : Fault), s.fault = some f →
    cycle s = .next s ∧ (s.hostTurns = [] → step s = .next s) ∧
    (∀ (events : List (Nibble × Bool)) (later : List (List HostEvent)),
      s.hostTurns = (events.map fun e => HostEvent.setKey e.1 e.2) :: later →
      ∃ t, s.hostTurn = .ok t ∧ t = { s with keys := t.keys, hostTurns := later } ∧ t.fault = some f ∧
        step s = .next t)

/-- 60_exceptions.md section 1 (D8; log 10): a step whose `pc` is above 0x0FFE latches FetchError with that `pc`, and
beside the tick of its cycle nothing changes. -/
def Obligations.FetchBeyondMemoryRaises : Prop :=
  ∀ s s' : State, s.hostTurn = .ok s' → s'.fault = none → 0x0FFE < s'.pc.toNat →
    step s = .next { s'.timerTick with fault := some (.fetchError s'.pc) }

/-- 60_exceptions.md section 1: a step that fetches an unknown opcode latches it, and beside the tick of its cycle nothing
changes. -/
def Obligations.UnknownOpcodeRaises : Prop :=
  ∀ (s s' : State), s.hostTurn = .ok s' → s'.fault = none → s'.pc.toNat ≤ 0x0FFE →
    decode s'.fetchOpcode = .error (.unknownOpcode s'.fetchOpcode) →
    step s = .next { s'.timerTick with fault := some (.unknownOpcode s'.fetchOpcode) }

/-- 70_reset_and_hazards.md section 2: a program parked on a jump to itself stays parked; a step in which the host does
nothing ticks the timers and changes nothing else. -/
def Obligations.ParkedProgramStaysParked : Prop :=
  ∀ s : State, s.Parked → s.hostTurns = [] → step s = .next s.timerTick ∧ s.timerTick.Parked

/-! ### Reset and the host -/

/-- 10_state.md section 10 and 20_memory.md section 2: the state after `reset(image)`. The zeros of I, DT, ST, the stack
and the display, the released keys, the latch and the font bytes are the spec's own decisions D6, D7, D16, D20 (logs 9, 1
and 16). The state after the empty image is `State.reset`. A reset of a machine that has run, or that has an error latched,
leaves the same state and then its cycle: of the state before it only the model's own fields go on, the count of draws and
the coming turns of the host (logs 2, 3 and 23). -/
def Obligations.ResetLeavesEveryValue : Prop :=
  (∀ image : List Byte, image.length ≤ 3584 → ∃ s, State.resetWith image = .ok s ∧
    (∀ r, s.getV r = 0) ∧ s.i = 0 ∧ s.pc = 0x0200 ∧ s.stack = [] ∧ s.dt = 0 ∧ s.st = 0 ∧
    (∀ x y, s.fb.pixel x y = false) ∧ (∀ k, s.key k = false) ∧ s.fault = none ∧
    (∀ a, a < 0x50 → s.memRead a = Config.font.getD a 0) ∧
    (∀ a, 0x50 ≤ a → a < 0x200 → s.memRead a = 0) ∧
    (∀ j, j < image.length → s.memRead (0x200 + j) = image.getD j 0) ∧
    (∀ a, 0x200 + image.length ≤ a → a < 0x1000 → s.memRead a = 0)) ∧
  State.resetWith [] = .ok State.reset ∧
  (∀ (s : State) (image : List Byte) (later : List (List HostEvent)), image.length ≤ 3584 →
    s.hostTurns = [.reset image] :: later →
    ∃ r, State.resetWith image = .ok r ∧
      s.hostTurn = .ok { r with draws := s.draws, hostTurns := later } ∧
      step s = cycle { r with draws := s.draws, hostTurns := later })

/-- 70_reset_and_hazards.md section 1: an image of more than 3584 bytes is refused as TooLarge, and a step in which the
host resets with one yields no machine (log 23). -/
def Obligations.TooLargeImageIsRefused : Prop :=
  (∀ image : List Byte, 3584 < image.length → State.resetWith image = .error .tooLarge) ∧
  (∀ (s : State) (image : List Byte) (later : List (List HostEvent)), 3584 < image.length →
    s.hostTurns = [.reset image] :: later → step s = .refused (.imageRefused .tooLarge))

/-- 10_state.md section 9: while the host only sets keys, its turn changes the key latch alone, and the last event about
a key decides its level (the schedule of the host is the model's; log 2). -/
def Obligations.HostTurnOfKeysChangesKeysAlone : Prop :=
  (∀ (s : State) (k q : Nibble) (b : Bool), (s.setKey k b).key q = if q = k then b else s.key q) ∧
  (∀ (s : State) (events : List (Nibble × Bool)) (later : List (List HostEvent)),
    s.hostTurns = (events.map fun e => HostEvent.setKey e.1 e.2) :: later →
    ∃ t, s.hostTurn = .ok t ∧ t = { s with keys := t.keys, hostTurns := later } ∧
      ∀ q, t.key q = ((events.reverse.find? fun e => e.1 == q).map Prod.snd).getD (s.key q))

/-! ### Invariants and whole-machine rules -/

/-- The invariant of Safety: canonical memory (the model's own form; log 20), at most 16 saved addresses (D5; log 8), each at most 0xFFE, and `pc` at most 0x10FE
(10_state.md section 3): every step from a state that has it leads to a state that has it. -/
def Obligations.StepKeepsTheInvariant : Prop :=
  ∀ s s' : State, s.Inv → step s = .next s' → s'.Inv

/-- The reset state has the invariant of `StepKeepsTheInvariant`: canonical memory (the model's own form; log 20), at most
16 saved addresses, each at most 0xFFE (its stack is empty by the spec's own D6; log 9), and `pc` at most 0x10FE. -/
def Obligations.ResetHasTheInvariant : Prop := State.reset.Inv

/-- The state after every accepted image has the invariant of `StepKeepsTheInvariant` (70_reset_and_hazards.md section 1,
10_state.md section 10). Its canonical memory is the model's own form, no rule of the spec (log 20), and its empty stack
the spec's own D6 (log 9). -/
def Obligations.LoadedMachineHasTheInvariant : Prop :=
  ∀ (image : List Byte) (s : State), State.resetWith image = .ok s → s.Inv

/-- No instruction is refused and none stops the machine: each answers a next state in every state, an error being a next
state with `fault` set (60_exceptions.md sections 4 and 7; log 1). -/
def Obligations.EveryInstructionAnswersNext : Prop :=
  ∀ (i : Instr) (s : State), ∃ t, exec i s = .next t

/-- 60_exceptions.md section 4 (precise errors, the spec's own D4; log 7): an instruction that raises changes `fault` and
nothing else. -/
def Obligations.ErrorsArePrecise : Prop :=
  ∀ (i : Instr) (s t : State) (f : Fault), s.fault = none → exec i s = .next t → t.fault = some f →
    t = { s with fault := some f }

/-- 60_exceptions.md section 1: the complete list of who raises ExecuteError, when, and what is recorded (D5, D17; logs 1
and 8). -/
def Obligations.OnlyTheListedInstructionsRaise : Prop :=
  ∀ (i : Instr) (s t : State) (f : Fault), s.fault = none → exec i s = .next t → t.fault = some f →
    (∃ ign, i = .ret ign ∧ s.stack = [] ∧ f = .executeError (encode i) .stackUnderflow) ∨
    (∃ addr, i = .call addr ∧ 16 ≤ s.stack.length ∧ f = .executeError (encode i) .stackOverflow) ∨
    (f = .executeError (encode i) .memoryOutOfBounds ∧
      ((∃ x y n, i = .drwVxVyN x y n ∧ 0 < n.toNat ∧ 0xFFF < s.i.toNat + n.toNat - 1) ∨
       (∃ x, i = .ldBVx x ∧ 0xFFF < s.i.toNat + 2) ∨
       (∃ x, i = .ldMemIVx x ∧ 0xFFF < s.i.toNat + x.toNat) ∨
       (∃ x, i = .ldVxMemI x ∧ 0xFFF < s.i.toNat + x.toNat)))

/-- 10_state.md section 2 (the effect column is exhaustive, D3; log 6): only the six flag instructions write VF as a flag, with 0 or 1; any other leaves it alone
unless VF is its destination. -/
def Obligations.OnlyFlagInstructionsWriteVf : Prop :=
  ∀ (i : Instr) (s t : State), s.fault = none → exec i s = .next t → i.destination ≠ some 0xF →
    (¬ i.writesFlag → t.getV 0xF = s.getV 0xF) ∧
    (i.writesFlag → t.fault = none → t.getV 0xF = 0 ∨ t.getV 0xF = 1)

/-- 10_state.md section 5: only `CLS` and `DRW` change the display. -/
def Obligations.OnlyClsAndDrwChangeTheDisplay : Prop :=
  ∀ (i : Instr) (s t : State), exec i s = .next t → t.fb ≠ s.fb →
    (∃ ign, i = .cls ign) ∨ (∃ x y n, i = .drwVxVyN x y n)

/-- 10_state.md section 3: only `CALL` pushes and only `RET` pops, each one entry, and no instruction changes the stack
in another way. -/
def Obligations.OnlyCallPushesAndOnlyRetPops : Prop :=
  ∀ (i : Instr) (s t : State), exec i s = .next t → t.stack ≠ s.stack →
    (∃ addr, i = .call addr ∧ t.stack = s.stack ++ [s.pc]) ∨
    (∃ ign a, i = .ret ign ∧ s.stack = t.stack ++ [a])

/-- 20_memory.md section 3: only `LD B,Vx` and `LD [I],Vx` store to memory. -/
def Obligations.OnlyTheTwoStoresChangeMemory : Prop :=
  ∀ (i : Instr) (s t : State) (a : Nat), exec i s = .next t → t.memRead a ≠ s.memRead a →
    (∃ x, i = .ldBVx x) ∨ (∃ x, i = .ldMemIVx x)

/-- 10_state.md sections 3 and 4: `I`, `DT` and `ST` are written by their own instructions alone, and only `RND` draws a
random byte. -/
def Obligations.SpecialRegistersHaveTheirOwnWriters : Prop :=
  ∀ (i : Instr) (s t : State), exec i s = .next t →
    (t.i ≠ s.i → (∃ addr, i = .ldIAddr addr) ∨ (∃ x, i = .addIVx x) ∨ (∃ x, i = .ldFVx x)) ∧
    (t.dt ≠ s.dt → ∃ x, i = .ldDtVx x) ∧
    (t.st ≠ s.st → ∃ x, i = .ldStVx x) ∧
    (t.draws ≠ s.draws → ∃ x kk, i = .rndVxKk x kk)

/-- 10_state.md section 6: the core reads the key latch and never writes it, nor what the host will do. -/
def Obligations.NoInstructionWritesTheKeys : Prop :=
  ∀ (i : Instr) (s t : State), exec i s = .next t → t.keys = s.keys ∧ t.hostTurns = s.hostTurns

/-! ### Control transfer -/

/-- 40_control_flow.md on `JMP` (R111): `JMP addr` goes to `addr`, and nothing else changes. -/
def Obligations.JumpGoesToItsAddress : Prop :=
  ∀ (addr : Addr12) (s : State), ∃ t, exec (.jmp addr) s = .next t ∧
    t.pc.toNat = addr.toNat ∧ Effects.none.Only s t

/-- 40_control_flow.md on `JP` (R114): `JP V0,addr` goes to the sum of `addr` and V0, not reduced modulo 4096, and nothing else
changes. -/
def Obligations.OffsetJumpAddsV0 : Prop :=
  ∀ (addr : Addr12) (s : State), ∃ t, exec (.jpV0Addr addr) s = .next t ∧
    t.pc.toNat = addr.toNat + (s.getV 0).toNat ∧ Effects.none.Only s t

/-- 40_control_flow.md R113 below the depth of 16: `CALL` pushes its own address and goes to `addr`. -/
def Obligations.CallPushesItsOwnAddress : Prop :=
  ∀ (addr : Addr12) (s : State), s.stack.length < 16 → ∃ t, exec (.call addr) s = .next t ∧
    t.pc.toNat = addr.toNat ∧ t.stack = s.stack ++ [s.pc] ∧ ({ stack := true : Effects }).Only s t

/-- 40_control_flow.md R110 on a stack with an entry: `RET` removes the last one and goes to it plus 2. -/
def Obligations.RetGoesAfterTheCall : Prop :=
  ∀ (ign : Nibble) (s : State) (below : List Word) (a : Word), s.stack = below ++ [a] →
    ∃ t, exec (.ret ign) s = .next t ∧
      t.pc = a + 2 ∧ t.stack = below ∧ ({ stack := true : Effects }).Only s t

/-- 40_control_flow.md R110 and R113 (D5; log 8): `RET` on an empty stack and `CALL` with 16 entries saved latch their
error and change nothing else. -/
def Obligations.StackErrorsChangeNothing : Prop :=
  (∀ (ign : Nibble) (s : State), s.stack = [] →
    exec (.ret ign) s = .next { s with fault := some (.executeError (encode (.ret ign)) .stackUnderflow) }) ∧
  (∀ (addr : Addr12) (s : State), 16 ≤ s.stack.length →
    exec (.call addr) s = .next { s with fault := some (.executeError (encode (.call addr)) .stackOverflow) })

/-- 40_control_flow.md section on CALL, the source's property of 95_test_vectors.md S9: N nested calls and N returns
restore the stack and end after the first call. -/
def Obligations.NestedCallsUnwind : Prop :=
  ∀ (targets : List Addr12) (s : State), targets ≠ [] → s.stack.length + targets.length ≤ 16 →
    ∃ t, execAll (targets.map Instr.call ++ List.replicate targets.length (Instr.ret 0)) s = .next t ∧
      t.pc = s.pc + 2 ∧ Effects.none.Only s t

/-- R115, R116: `SE Vx,kk` skips when Vx is kk, `SNE Vx,kk` when it is not; nothing else changes. -/
def Obligations.SkipsCompareWithTheImmediate : Prop :=
  ∀ (x : Nibble) (kk : Byte) (s : State),
    (∃ t, exec (.seVxKk x kk) s = .next t ∧
      t.pc = (if s.getV x = kk then s.pc + 4 else s.pc + 2) ∧ Effects.none.Only s t) ∧
    (∃ t, exec (.sneVxKk x kk) s = .next t ∧
      t.pc = (if s.getV x ≠ kk then s.pc + 4 else s.pc + 2) ∧ Effects.none.Only s t)

/-- R117, R118: `SE Vx,Vy` and `SNE Vx,Vy`, whatever the low nibble; nothing else changes. -/
def Obligations.SkipsCompareRegisters : Prop :=
  ∀ (x y ign : Nibble) (s : State),
    (∃ t, exec (.seVxVy x y ign) s = .next t ∧
      t.pc = (if s.getV x = s.getV y then s.pc + 4 else s.pc + 2) ∧ Effects.none.Only s t) ∧
    (∃ t, exec (.sneVxVy x y ign) s = .next t ∧
      t.pc = (if s.getV x ≠ s.getV y then s.pc + 4 else s.pc + 2) ∧ Effects.none.Only s t)

/-- R200, R201: `SKP` and `SKNP` test the level of the key that the low nibble of Vx names; nothing else changes. -/
def Obligations.SkipsTestTheKey : Prop :=
  ∀ (x : Nibble) (s : State),
    (∃ t, exec (.skpVx x) s = .next t ∧
      t.pc = (if s.key (BitVec.ofNat 4 ((s.getV x).toNat % 16)) = true then s.pc + 4 else s.pc + 2) ∧
      Effects.none.Only s t) ∧
    (∃ t, exec (.sknpVx x) s = .next t ∧
      t.pc = (if s.key (BitVec.ofNat 4 ((s.getV x).toNat % 16)) = false then s.pc + 4 else s.pc + 2) ∧
      Effects.none.Only s t)

/-! ### Load, arithmetic, logic, shift, random -/

/-- R130, R135: `LD Vx,kk` and `LD Vx,Vy` write Vx alone. -/
def Obligations.LoadsWriteTheirRegister : Prop :=
  ∀ (x y : Nibble) (kk : Byte) (s : State),
    (∃ t, exec (.ldVxKk x kk) s = .next t ∧
      t.getV x = kk ∧ t.pc = s.pc + 2 ∧ (Effects.reg x).Only s t) ∧
    (∃ t, exec (.ldVxVy x y) s = .next t ∧
      t.getV x = s.getV y ∧ t.pc = s.pc + 2 ∧ (Effects.reg x).Only s t)

/-- R131: `ADD Vx,kk` adds modulo 256 and writes no flag. -/
def Obligations.AddImmediateWrapsWithoutFlag : Prop :=
  ∀ (x : Nibble) (kk : Byte) (s : State), ∃ t, exec (.addVxKk x kk) s = .next t ∧
    (t.getV x).toNat = ((s.getV x).toNat + kk.toNat) % 256 ∧ t.pc = s.pc + 2 ∧ (Effects.reg x).Only s t

/-- 41_load_and_alu.md section 3 on `OR`, `AND`, `XOR` (R136 to R138): bit by bit. That VF is not written or cleared is the
spec's own D3 (log 6). -/
def Obligations.LogicIsBitwiseWithoutFlag : Prop :=
  ∀ (x y : Nibble) (s : State),
    (∃ t, exec (.orVxVy x y) s = .next t ∧
      (∀ j, (t.getV x).getLsbD j = ((s.getV x).getLsbD j || (s.getV y).getLsbD j)) ∧
      t.pc = s.pc + 2 ∧ (Effects.reg x).Only s t) ∧
    (∃ t, exec (.andVxVy x y) s = .next t ∧
      (∀ j, (t.getV x).getLsbD j = ((s.getV x).getLsbD j && (s.getV y).getLsbD j)) ∧
      t.pc = s.pc + 2 ∧ (Effects.reg x).Only s t) ∧
    (∃ t, exec (.xorVxVy x y) s = .next t ∧
      (∀ j, (t.getV x).getLsbD j = ((s.getV x).getLsbD j != (s.getV y).getLsbD j)) ∧
      t.pc = s.pc + 2 ∧ (Effects.reg x).Only s t)

/-- 41_load_and_alu.md R139: Vx is the sum modulo 256, also when Vx is VF; otherwise VF says whether the sum exceeds 255.
That the result stays when x is 0xF is the spec's own D2 (log 5). -/
def Obligations.AddSetsTheCarry : Prop :=
  ∀ (x y : Nibble) (s : State), ∃ t, exec (.addVxVy x y) s = .next t ∧
    (t.getV x).toNat = ((s.getV x).toNat + (s.getV y).toNat) % 256 ∧
    (x ≠ 0xF → (t.getV 0xF).toNat = if 255 < (s.getV x).toNat + (s.getV y).toNat then 1 else 0) ∧
    t.pc = s.pc + 2 ∧ (Effects.regAndFlag x).Only s t

/-- 41_load_and_alu.md R140: Vx is the difference modulo 256, also when Vx is VF (D2; log 5); otherwise VF says whether Vx
was strictly greater than Vy (C5). -/
def Obligations.SubFlagsStrictlyGreater : Prop :=
  ∀ (x y : Nibble) (s : State), ∃ t, exec (.subVxVy x y) s = .next t ∧
    (t.getV x).toNat = ((s.getV x).toNat + 256 - (s.getV y).toNat) % 256 ∧
    (x ≠ 0xF → (t.getV 0xF).toNat = if (s.getV y).toNat < (s.getV x).toNat then 1 else 0) ∧
    t.pc = s.pc + 2 ∧ (Effects.regAndFlag x).Only s t

/-- 41_load_and_alu.md R141: Vx is Vy minus Vx modulo 256, also when Vx is VF (D2; log 5); otherwise VF says whether Vy
was strictly greater than Vx (C5). -/
def Obligations.SubnFlagsStrictlyGreater : Prop :=
  ∀ (x y : Nibble) (s : State), ∃ t, exec (.subnVxVy x y) s = .next t ∧
    (t.getV x).toNat = ((s.getV y).toNat + 256 - (s.getV x).toNat) % 256 ∧
    (x ≠ 0xF → (t.getV 0xF).toNat = if (s.getV x).toNat < (s.getV y).toNat then 1 else 0) ∧
    t.pc = s.pc + 2 ∧ (Effects.regAndFlag x).Only s t

/-- 41_load_and_alu.md R142: Vx is halved and VF is its old bit 0; when x is 0xF, VF ends 0 (D2; log 5). -/
def Obligations.ShiftRightFlagsBitZero : Prop :=
  ∀ (x ign : Nibble) (s : State), ∃ t, exec (.shrVx x ign) s = .next t ∧
    (x ≠ 0xF → (t.getV x).toNat = (s.getV x).toNat / 2 ∧ (t.getV 0xF).toNat = (s.getV x).toNat % 2) ∧
    (x = 0xF → t.getV x = 0) ∧
    t.pc = s.pc + 2 ∧ (Effects.regAndFlag x).Only s t

/-- 41_load_and_alu.md R143: Vx is doubled modulo 256 and VF is its old bit 0, not bit 7 (C6); when x is 0xF, VF ends as
twice its old bit 0 (D2; log 5). -/
def Obligations.ShiftLeftFlagsBitZero : Prop :=
  ∀ (x ign : Nibble) (s : State), ∃ t, exec (.shlVx x ign) s = .next t ∧
    (x ≠ 0xF → (t.getV x).toNat = (s.getV x).toNat * 2 % 256 ∧ (t.getV 0xF).toNat = (s.getV x).toNat % 2) ∧
    (x = 0xF → (t.getV x).toNat = 2 * ((s.getV x).toNat % 2)) ∧
    t.pc = s.pc + 2 ∧ (Effects.regAndFlag x).Only s t

/-- 41_load_and_alu.md section 5: `RND` takes the next free byte under the mask (the free value of D15; log 3), so no bit
outside the mask is ever set, and the next draw is another one. It holds for every value of the draw. -/
def Obligations.RandomByteStaysUnderTheMask : Prop :=
  ∀ (x : Nibble) (kk : Byte) (s : State), ∃ t, exec (.rndVxKk x kk) s = .next t ∧
    t.getV x = Config.draw8 s.draws &&& kk ∧ (∀ j, kk.getLsbD j = false → (t.getV x).getLsbD j = false) ∧
    t.draws = s.draws + 1 ∧ t.pc = s.pc + 2 ∧
    ({ regs := fun r => r == x, draws := true : Effects }).Only s t

/-! ### Index register and memory -/

/-- R160, R162: `LD I,addr` and `LD F,Vx` write `I` alone. -/
def Obligations.IndexLoads : Prop :=
  (∀ (addr : Addr12) (s : State), ∃ t, exec (.ldIAddr addr) s = .next t ∧
    t.i.toNat = addr.toNat ∧ t.pc = s.pc + 2 ∧ ({ index := true : Effects }).Only s t) ∧
  (∀ (x : Nibble) (s : State), ∃ t, exec (.ldFVx x) s = .next t ∧
    t.i.toNat = (s.getV x).toNat % 16 * 5 ∧ t.pc = s.pc + 2 ∧ ({ index := true : Effects }).Only s t)

/-- 42_index_and_memory.md R161 (the wrap is the spec's own D9; log 11): `ADD I,Vx` adds modulo 65536 and writes `I`
alone; that it leaves VF is the spec's own D3 (log 6). -/
def Obligations.IndexAddWrapsWithoutFlag : Prop :=
  ∀ (x : Nibble) (s : State), ∃ t, exec (.addIVx x) s = .next t ∧
    t.i.toNat = (s.i.toNat + (s.getV x).toNat) % 65536 ∧ t.pc = s.pc + 2 ∧ ({ index := true : Effects }).Only s t

/-- 42_index_and_memory.md R163 inside memory (digit order D11; log 12): the three digits at I, I + 1, I + 2, every other
byte as before, `I` too (D3; log 6). Canonical memory is the invariant `Memory.wf`. -/
def Obligations.DecimalDigitsAreStored : Prop :=
  ∀ (x : Nibble) (s : State), Memory.wf s.mem = true → s.i.toNat ≤ 0xFFD → ∃ t, exec (.ldBVx x) s = .next t ∧
    (t.memRead s.i.toNat).toNat = (s.getV x).toNat / 100 ∧
    (t.memRead (s.i.toNat + 1)).toNat = (s.getV x).toNat / 10 % 10 ∧
    (t.memRead (s.i.toNat + 2)).toNat = (s.getV x).toNat % 10 ∧
    t.pc = s.pc + 2 ∧ (Effects.store s.i.toNat 3).Only s t

/-- 42_index_and_memory.md R164 inside memory: V0 to Vx at I to I + x, every other byte as before, `I` too (D3;
log 6). Canonical memory is the invariant `Memory.wf` (log 20). -/
def Obligations.RegistersAreStored : Prop :=
  ∀ (x : Nibble) (s : State), Memory.wf s.mem = true → s.i.toNat + x.toNat ≤ 0xFFF →
    ∃ t, exec (.ldMemIVx x) s = .next t ∧
      (∀ q : Nibble, q.toNat ≤ x.toNat → t.memRead (s.i.toNat + q.toNat) = s.getV q) ∧
      t.pc = s.pc + 2 ∧ (Effects.store s.i.toNat (x.toNat + 1)).Only s t

/-- 42_index_and_memory.md R165 inside memory (pairing D10; log 12): V0 to Vx from I to I + x, the other registers as
before, `I` too (D3; log 6). -/
def Obligations.RegistersAreLoaded : Prop :=
  ∀ (x : Nibble) (s : State), s.i.toNat + x.toNat ≤ 0xFFF →
    ∃ t, exec (.ldVxMemI x) s = .next t ∧
      (∀ q : Nibble, q.toNat ≤ x.toNat → t.getV q = s.memRead (s.i.toNat + q.toNat)) ∧
      t.pc = s.pc + 2 ∧ ({ regs := fun r => decide (r.toNat ≤ x.toNat) : Effects }).Only s t

/-- 42_index_and_memory.md R164 and R165: a load with the same `I` and x restores what a store saved, whatever happened
to the rest of the machine in between. -/
def Obligations.StoreThenLoadRestoresTheRegisters : Prop :=
  ∀ (x : Nibble) (s t s' : State), Memory.wf s.mem = true → s.i.toNat + x.toNat ≤ 0xFFF →
    exec (.ldMemIVx x) s = .next t → s'.mem = t.mem → s'.i = s.i →
    ∃ u, exec (.ldVxMemI x) s' = .next u ∧ ∀ q : Nibble, q.toNat ≤ x.toNat → u.getV q = s.getV q

/-- 42_index_and_memory.md R166 and 60_exceptions.md R223 (D4; log 7): a range that reaches past 0xFFF latches
MemoryOutOfBounds and changes nothing else. -/
def Obligations.RangesPastMemoryRaise : Prop :=
  ∀ (x y n : Nibble) (s : State),
    (0xFFF < s.i.toNat + 2 →
      exec (.ldBVx x) s = .next { s with fault := some (.executeError (encode (.ldBVx x)) .memoryOutOfBounds) }) ∧
    (0xFFF < s.i.toNat + x.toNat →
      exec (.ldMemIVx x) s =
        .next { s with fault := some (.executeError (encode (.ldMemIVx x)) .memoryOutOfBounds) } ∧
      exec (.ldVxMemI x) s =
        .next { s with fault := some (.executeError (encode (.ldVxMemI x)) .memoryOutOfBounds) }) ∧
    (0 < n.toNat → 0xFFF < s.i.toNat + n.toNat - 1 →
      exec (.drwVxVyN x y n) s =
        .next { s with fault := some (.executeError (encode (.drwVxVyN x y n)) .memoryOutOfBounds) })

/-! ### Display -/

/-- R33: `flip` toggles the pixel at (x mod 64, y mod 32), no other, and returns whether it was set; on an unset pixel two
flips return false and then true. -/
def Obligations.FlipTogglesOnePixel : Prop :=
  ∀ (fb : FrameBuffer) (x y : Nat),
    (fb.flip x y).2 = fb.pixel (x % 64) (y % 32) ∧
    (fb.flip x y).1.pixel (x % 64) (y % 32) = !fb.pixel (x % 64) (y % 32) ∧
    (∀ x' y', x' < 64 → y' < 32 → ¬ (x' = x % 64 ∧ y' = y % 32) → (fb.flip x y).1.pixel x' y' = fb.pixel x' y') ∧
    (fb.pixel (x % 64) (y % 32) = false → (fb.flip x y).2 = false ∧ ((fb.flip x y).1.flip x y).2 = true)

/-- R34, R180: `CLS` zeroes every pixel and nothing else, VF included; flips of the cleared display are first-time
sets. -/
def Obligations.ClearUnsetsEveryPixel : Prop :=
  ∀ (ign : Nibble) (s : State), ∃ t, exec (.cls ign) s = .next t ∧
    (∀ x y, t.fb.pixel x y = false) ∧ (∀ x y, (t.fb.flip x y).2 = false) ∧
    t.pc = s.pc + 2 ∧ ({ display := true : Effects }).Only s t

/-- 43_display.md R181 to R186 when the sprite lies inside memory or has no rows (bit order D21, n = 0 D12, read order
D13; logs 13 and 17): covered pixels toggle, no other does, VF is 1 when a covered pixel was set, and nothing else
changes, `I` included (D3; log 6). The coordinates are those before VF is written. -/
def Obligations.DrawXorsTheSprite : Prop :=
  ∀ (x y n : Nibble) (s : State), n.toNat = 0 ∨ s.i.toNat + n.toNat - 1 ≤ 0xFFF →
    ∃ t, exec (.drwVxVyN x y n) s = .next t ∧
      (∀ px py, px < 64 → py < 32 → s.Covers (s.getV x).toNat (s.getV y).toNat n.toNat px py →
        t.fb.pixel px py = !s.fb.pixel px py) ∧
      (∀ px py, px < 64 → py < 32 → ¬ s.Covers (s.getV x).toNat (s.getV y).toNat n.toNat px py →
        t.fb.pixel px py = s.fb.pixel px py) ∧
      ((∃ px py, px < 64 ∧ py < 32 ∧ s.Covers (s.getV x).toNat (s.getV y).toNat n.toNat px py ∧
        s.fb.pixel px py = true) → t.getV 0xF = 1) ∧
      ((¬ ∃ px py, px < 64 ∧ py < 32 ∧ s.Covers (s.getV x).toNat (s.getV y).toNat n.toNat px py ∧
        s.fb.pixel px py = true) → t.getV 0xF = 0) ∧
      t.pc = s.pc + 2 ∧ ({ regs := fun r => r == 0xF, display := true : Effects }).Only s t

/-- 43_display.md section on `DRW` (R181, R184, and R185 without rows: n = 0 draws nothing and checks nothing, the spec's
own D12; log 13): drawing the same sprite at the same place twice restores the display. It needs the same place: with x or
y equal to 0xF the first draw writes VF and so moves the second, and those forms are `DrawXorsTheSprite`'s. -/
def Obligations.DrawTwiceRestoresTheDisplay : Prop :=
  ∀ (x y n : Nibble) (s : State), x ≠ 0xF → y ≠ 0xF → (n.toNat = 0 ∨ s.i.toNat + n.toNat - 1 ≤ 0xFFF) →
    ∃ t u, exec (.drwVxVyN x y n) s = .next t ∧ exec (.drwVxVyN x y n) t = .next u ∧ u.fb = s.fb

/-! ### Keypad and timers -/

/-- R202, R209: with no key pressed `LD Vx,K` changes nothing at all, so it runs again; else Vx is the lowest pressed key
and the next instruction follows. -/
def Obligations.WaitTakesTheLowestKey : Prop :=
  (∀ (x : Nibble) (s : State), (∀ k, s.key k = false) → exec (.ldVxK x) s = .next s) ∧
  (∀ (x k : Nibble) (s : State), s.key k = true → (∀ j : Nibble, j.toNat < k.toNat → s.key j = false) →
    ∃ t, exec (.ldVxK x) s = .next t ∧
      (t.getV x).toNat = k.toNat ∧ t.pc = s.pc + 2 ∧ (Effects.reg x).Only s t)

/-- 44_keypad_and_timers.md R203, R204, R205: the timers are copied whole, and nothing else changes. -/
def Obligations.TimersAreReadAndSet : Prop :=
  ∀ (x : Nibble) (s : State),
    (∃ t, exec (.ldVxDt x) s = .next t ∧
      t.getV x = s.dt ∧ t.pc = s.pc + 2 ∧ (Effects.reg x).Only s t) ∧
    (∃ t, exec (.ldDtVx x) s = .next t ∧
      t.dt = s.getV x ∧ t.pc = s.pc + 2 ∧ ({ delay := true : Effects }).Only s t) ∧
    (∃ t, exec (.ldStVx x) s = .next t ∧
      t.st = s.getV x ∧ t.pc = s.pc + 2 ∧ ({ sound := true : Effects }).Only s t)
end

