-- ==== Sys2Proof/Laws/Decode.lean ====
section
/-! SUPPORT. The fields of an opcode that is put together from fields, and that no two rows of the opcode map overlap. -/

namespace Sys2Proof

/-! ### The field functions take an opcode apart at its bits -/

theorem opGroup_or (a b : Word) : opGroup (a ||| b) = opGroup a ||| opGroup b := by
  simp only [opGroup]
  ext i h
  simp [Bool.and_or_distrib_right]

theorem opX_or (a b : Word) : opX (a ||| b) = opX a ||| opX b := by
  simp only [opX]
  ext i h
  simp [Bool.and_or_distrib_right]

theorem opY_or (a b : Word) : opY (a ||| b) = opY a ||| opY b := by
  simp only [opY]
  ext i h
  simp [Bool.and_or_distrib_right]

theorem opN_or (a b : Word) : opN (a ||| b) = opN a ||| opN b := by
  simp only [opN]
  ext i h
  simp [Bool.and_or_distrib_right]

theorem opAddr_or (a b : Word) : opAddr (a ||| b) = opAddr a ||| opAddr b := by
  simp only [opAddr]
  ext i h
  simp [Bool.and_or_distrib_right]

theorem opKk_or (a b : Word) : opKk (a ||| b) = opKk a ||| opKk b := by
  simp only [opKk]
  ext i h
  simp [Bool.and_or_distrib_right]

/-! ### What each field function finds in a placed field -/

@[simp] theorem opX_atX (x : Nibble) : opX (atX x) = x := by
  simp only [opX, atX]
  ext i h
  interval_cases i <;> simp

@[simp] theorem opY_atY (y : Nibble) : opY (atY y) = y := by
  simp only [opY, atY]
  ext i h
  interval_cases i <;> simp

@[simp] theorem opN_atN (n : Nibble) : opN (atN n) = n := by
  simp only [opN, atN]
  ext i h
  interval_cases i <;> simp

@[simp] theorem opAddr_atAddr (addr : Addr12) : opAddr (atAddr addr) = addr := by
  simp only [opAddr, atAddr]
  ext i h
  interval_cases i <;> simp

@[simp] theorem opKk_atKk (kk : Byte) : opKk (atKk kk) = kk := by
  simp only [opKk, atKk]
  ext i h
  interval_cases i <;> simp

@[simp] theorem opX_atY (y : Nibble) : opX (atY y) = 0 := by
  simp only [opX, atY]
  ext i h
  interval_cases i <;> simp

@[simp] theorem opX_atN (n : Nibble) : opX (atN n) = 0 := by
  simp only [opX, atN]
  ext i h
  interval_cases i <;> simp

@[simp] theorem opX_atKk (kk : Byte) : opX (atKk kk) = 0 := by
  simp only [opX, atKk]
  ext i h
  interval_cases i <;> simp

@[simp] theorem opY_atX (x : Nibble) : opY (atX x) = 0 := by
  simp only [opY, atX]
  ext i h
  interval_cases i <;> simp

@[simp] theorem opY_atN (n : Nibble) : opY (atN n) = 0 := by
  simp only [opY, atN]
  ext i h
  interval_cases i <;> simp

@[simp] theorem opN_atX (x : Nibble) : opN (atX x) = 0 := by
  simp only [opN, atX]
  ext i h
  interval_cases i <;> simp

@[simp] theorem opN_atY (y : Nibble) : opN (atY y) = 0 := by
  simp only [opN, atY]
  ext i h
  interval_cases i <;> simp

@[simp] theorem opKk_atX (x : Nibble) : opKk (atX x) = 0 := by
  simp only [opKk, atX]
  ext i h
  interval_cases i <;> simp

@[simp] theorem opGroup_atX (x : Nibble) : opGroup (atX x) = 0 := by
  simp only [opGroup, atX]
  ext i h
  interval_cases i <;> simp

@[simp] theorem opGroup_atY (y : Nibble) : opGroup (atY y) = 0 := by
  simp only [opGroup, atY]
  ext i h
  interval_cases i <;> simp

@[simp] theorem opGroup_atN (n : Nibble) : opGroup (atN n) = 0 := by
  simp only [opGroup, atN]
  ext i h
  interval_cases i <;> simp

@[simp] theorem opGroup_atAddr (addr : Addr12) : opGroup (atAddr addr) = 0 := by
  simp only [opGroup, atAddr]
  ext i h
  interval_cases i <;> simp

@[simp] theorem opGroup_atKk (kk : Byte) : opGroup (atKk kk) = 0 := by
  simp only [opGroup, atKk]
  ext i h
  interval_cases i <;> simp

/-! ### The masks of the dispatch keys (R83) -/

@[simp] theorem atX_and_F000 (x : Nibble) : atX x &&& 0xF000#16 = 0 := by
  simp only [atX]
  ext i h
  interval_cases i <;> simp

@[simp] theorem atY_and_F000 (y : Nibble) : atY y &&& 0xF000#16 = 0 := by
  simp only [atY]
  ext i h
  interval_cases i <;> simp

@[simp] theorem atN_and_F000 (n : Nibble) : atN n &&& 0xF000#16 = 0 := by
  simp only [atN]
  ext i h
  interval_cases i <;> simp

@[simp] theorem atAddr_and_F000 (addr : Addr12) : atAddr addr &&& 0xF000#16 = 0 := by
  simp only [atAddr]
  ext i h
  interval_cases i <;> simp

@[simp] theorem atKk_and_F000 (kk : Byte) : atKk kk &&& 0xF000#16 = 0 := by
  simp only [atKk]
  ext i h
  interval_cases i <;> simp

@[simp] theorem atX_and_F00F (x : Nibble) : atX x &&& 0xF00F#16 = 0 := by
  simp only [atX]
  ext i h
  interval_cases i <;> simp

@[simp] theorem atY_and_F00F (y : Nibble) : atY y &&& 0xF00F#16 = 0 := by
  simp only [atY]
  ext i h
  interval_cases i <;> simp

@[simp] theorem atX_and_F0FF (x : Nibble) : atX x &&& 0xF0FF#16 = 0 := by
  simp only [atX]
  ext i h
  interval_cases i <;> simp

/-- A mask of a placed opcode is the mask of its parts. -/
theorem or_and_mask (a b m : Word) : (a ||| b) &&& m = (a &&& m) ||| (b &&& m) := by
  ext i h
  simp [Bool.and_or_distrib_right]

/-! ### The rows of the map -/

/-- Two rows of R84 share no opcode: their fixed bits differ at a bit that both masks look at (R83). -/
theorem opcodeRows_disjoint :
    opcodeRows.Pairwise (fun p q => (p.2 ^^^ q.2) &&& (p.1 &&& q.1) ≠ 0) := by decide

/-- There are 34 rows (R84, C1). -/
theorem opcodeRows_length : opcodeRows.length = 34 := by decide

/-- An opcode put into two bytes is read back from them (R56). -/
theorem opcodeOfBytes_bytesOfOpcode (op : Word) :
    opcodeOfBytes (op.extractLsb' 8 8) (op.extractLsb' 0 8) = op := by
  unfold opcodeOfBytes
  ext i h
  rw [BitVec.getElem_append]
  split
  · rw [BitVec.getElem_extractLsb', ← BitVec.getLsbD_eq_getElem, Nat.zero_add]
  · rw [BitVec.getElem_extractLsb', ← BitVec.getLsbD_eq_getElem]
    congr 1; omega

/-- The opcode of two bytes, as a number (R56). -/
theorem opcodeOfBytes_toNat (hi lo : Byte) : (opcodeOfBytes hi lo).toNat = hi.toNat * 256 + lo.toNat := by
  unfold opcodeOfBytes
  rw [BitVec.toNat_append, Nat.shiftLeft_eq, ← Nat.mul_comm, ← Nat.two_pow_add_eq_or_of_lt lo.isLt]

end Sys2Proof
end

