-- ==== Sys2Proof/Laws/Memory.lean ====
section
/-! SUPPORT. The laws of memory: a read after a write, the canonical form that every operation keeps, and that canonical
memories with equal bytes are equal data. -/

namespace Sys2Proof.Machine

theorem Memory.read_cons (a : Nat) (b : Byte) (m : Memory) (c : Nat) (h : c = a → Memory.read m a = Memory.unlisted a) :
    Memory.read (Memory.cons a b m) c = if c = a then b else Memory.read m c := by
  unfold Memory.cons
  by_cases hc : c = a
  · subst hc
    split
    · simp_all
    · simp [Memory.read]
  · split
    · simp
    · simp [Memory.read, Ne.symm hc]

/-- Below the lowest listed address memory reads as unlisted. -/
theorem Memory.read_below {low : Nat} {m : Memory} (h : Memory.wfFrom low m = true) {a : Nat} (ha : a < low) :
    Memory.read m a = Memory.unlisted a := by
  induction m generalizing low with
  | nil => rfl
  | cons kb m ih =>
    obtain ⟨k, b⟩ := kb
    simp only [Memory.wfFrom, Bool.and_eq_true, decide_eq_true_eq] at h
    have hk : k ≠ a := by omega
    simp only [Memory.read, hk, if_false]
    exact ih h.2 (by omega)

theorem Memory.wfFrom_mono {low low' : Nat} {m : Memory} (h : Memory.wfFrom low m = true) (hl : low' ≤ low) :
    Memory.wfFrom low' m = true := by
  cases m with
  | nil => rfl
  | cons kb m =>
    simp only [Memory.wfFrom, Bool.and_eq_true, decide_eq_true_eq] at h ⊢
    exact ⟨⟨⟨by omega, h.1.1.2⟩, h.1.2⟩, h.2⟩

theorem Memory.wfFrom_cons {low a : Nat} {b : Byte} {m : Memory} (h : Memory.wfFrom (a + 1) m = true)
    (hl : low ≤ a) (ha : a < Config.memSize) : Memory.wfFrom low (Memory.cons a b m) = true := by
  unfold Memory.cons
  split
  · exact Memory.wfFrom_mono h (by omega)
  · rename_i hb
    simp only [Memory.wfFrom, Bool.and_eq_true, decide_eq_true_eq]
    exact ⟨⟨⟨hl, ha⟩, hb⟩, h⟩

theorem Memory.wfFrom_put {low : Nat} {m : Memory} (h : Memory.wfFrom low m = true) {a : Nat} (b : Byte)
    (hl : low ≤ a) (ha : a < Config.memSize) : Memory.wfFrom low (Memory.put m a b) = true := by
  induction m generalizing low with
  | nil => exact Memory.wfFrom_cons rfl hl ha
  | cons kc m ih =>
    obtain ⟨k, c⟩ := kc
    simp only [Memory.wfFrom, Bool.and_eq_true, decide_eq_true_eq] at h
    simp only [Memory.put]
    split
    · rename_i hk
      simp only [Memory.wfFrom, Bool.and_eq_true, decide_eq_true_eq]
      exact ⟨⟨⟨h.1.1.1, h.1.1.2⟩, h.1.2⟩, ih h.2 (by omega)⟩
    · split
      · rename_i hk
        subst hk
        exact Memory.wfFrom_cons h.2 hl ha
      · refine Memory.wfFrom_cons ?_ hl ha
        simp only [Memory.wfFrom, Bool.and_eq_true, decide_eq_true_eq]
        exact ⟨⟨⟨by omega, h.1.1.2⟩, h.1.2⟩, h.2⟩

theorem Memory.read_put {low : Nat} {m : Memory} (h : Memory.wfFrom low m = true) (a : Nat) (b : Byte) (c : Nat) :
    Memory.read (Memory.put m a b) c = if c = a then b else Memory.read m c := by
  induction m generalizing low with
  | nil => exact Memory.read_cons a b [] c (fun _ => rfl)
  | cons kd m ih =>
    obtain ⟨k, d⟩ := kd
    simp only [Memory.wfFrom, Bool.and_eq_true, decide_eq_true_eq] at h
    simp only [Memory.put]
    split
    · rename_i hk
      simp only [Memory.read, ih h.2]
      split
      · rename_i hkc
        have : c ≠ a := by omega
        simp [this]
      · rfl
    · split
      · rename_i hk
        subst hk
        rw [Memory.read_cons _ _ _ _ (fun _ => Memory.read_below h.2 (by omega))]
        by_cases hc : c = k
        · simp [hc]
        · simp [hc, Memory.read, Ne.symm hc]
      · refine Memory.read_cons a b ((k, d) :: m) c (fun _ => ?_)
        have hk : k ≠ a := by omega
        simp only [Memory.read, hk, if_false]
        exact Memory.read_below h.2 (by omega)

/-- A write keeps the canonical form. -/
theorem Memory.wf_write {m : Memory} (h : Memory.wf m = true) (a : Nat) (b : Byte) :
    Memory.wf (Memory.write m a b) = true := by
  unfold Memory.write Memory.wf at *
  split
  · exact Memory.wfFrom_put h b (Nat.zero_le _) (by assumption)
  · exact h

/-- What a read finds after a write, in canonical memory. -/
theorem Memory.read_write {m : Memory} (h : Memory.wf m = true) {a : Nat} (ha : a < Config.memSize) (b : Byte) (c : Nat) :
    Memory.read (Memory.write m a b) c = if c = a then b else Memory.read m c := by
  unfold Memory.write
  simp only [ha, if_true]
  exact Memory.read_put h a b c

/-- The memory of the reset state is canonical. -/
theorem Memory.wf_reset : Memory.wf State.reset.mem = true := rfl

theorem Memory.ext_from {low low' : Nat} {m m' : Memory} (h : Memory.wfFrom low m = true)
    (h' : Memory.wfFrom low' m' = true) (hr : ∀ a, Memory.read m a = Memory.read m' a) : m = m' := by
  induction m generalizing low low' m' with
  | nil =>
    cases m' with
    | nil => rfl
    | cons kb m' =>
      simp only [Memory.wfFrom, Bool.and_eq_true, decide_eq_true_eq] at h'
      have := hr kb.1
      simp only [Memory.read, if_true] at this
      exact absurd this.symm h'.1.2
  | cons kb m ih =>
    obtain ⟨k, b⟩ := kb
    simp only [Memory.wfFrom, Bool.and_eq_true, decide_eq_true_eq] at h
    cases m' with
    | nil =>
      have := hr k
      simp only [Memory.read, if_true] at this
      exact absurd this h.1.2
    | cons kb' m' =>
      obtain ⟨k', b'⟩ := kb'
      have hw' := h'
      simp only [Memory.wfFrom, Bool.and_eq_true, decide_eq_true_eq] at h'
      have hk := hr k
      have hk' := hr k'
      simp only [Memory.read, if_true] at hk hk'
      rcases Nat.lt_trichotomy k k' with hlt | heq | hgt
      · have : k' ≠ k := by omega
        simp only [this, if_false] at hk
        rw [Memory.read_below h'.2 (by omega)] at hk
        exact absurd hk h.1.2
      · subst heq
        simp only [if_true] at hk
        subst hk
        rw [ih h.2 h'.2 ?_]
        intro a
        rcases Nat.lt_or_ge a (k + 1) with ha | ha
        · rw [Memory.read_below h.2 ha, Memory.read_below h'.2 ha]
        · have := hr a
          have hka : k ≠ a := by omega
          simpa only [Memory.read, hka, if_false] using this
      · have : k ≠ k' := by omega
        simp only [this, if_false] at hk'
        rw [Memory.read_below h.2 (by omega)] at hk'
        exact absurd hk'.symm h'.1.2

/-- Canonical memories whose bytes are equal are equal. -/
theorem Memory.ext {m m' : Memory} (h : Memory.wf m = true) (h' : Memory.wf m' = true)
    (hr : ∀ a, Memory.read m a = Memory.read m' a) : m = m' := Memory.ext_from h h' hr

end Sys2Proof.Machine
end

