-- ==== Sys2Proof/Laws/Ops.lean ====
section
/-! SUPPORT. What each shared operation does, said once: registers, memory, the stack, blocks of bytes, the ends of a
step, and how a cycle runs an instruction. -/

namespace Sys2Proof.Machine

/-! ### Registers -/

theorem State.getV_setV (s : State) (r q : Nibble) (b : Byte) :
    (s.setV r b).getV q = if q = r then b else s.getV q := by
  unfold State.getV State.setV
  by_cases h : q = r
  · subst h; simp
  · have hn : r.toNat ≠ q.toNat := fun e => h (BitVec.eq_of_toNat_eq e.symm)
    simp [h, hn]

@[simp] theorem State.getV_setV_self (s : State) (r : Nibble) (b : Byte) : (s.setV r b).getV r = b := by
  simp [State.getV_setV]

theorem State.getV_setV_ne (s : State) {r q : Nibble} (h : q ≠ r) (b : Byte) : (s.setV r b).getV q = s.getV q := by
  simp [State.getV_setV, h]

/-- A register is read from the register file alone. -/
theorem State.getV_congr {s t : State} (h : s.v = t.v) (r : Nibble) : s.getV r = t.getV r := by
  unfold State.getV; simp [h]

@[simp] theorem State.getV_setI (s : State) (a : Word) (r : Nibble) : (s.setI a).getV r = s.getV r := rfl
@[simp] theorem State.getV_setPc (s : State) (a : Word) (r : Nibble) : (s.setPc a).getV r = s.getV r := rfl
@[simp] theorem State.getV_setDt (s : State) (b : Byte) (r : Nibble) : (s.setDt b).getV r = s.getV r := rfl
@[simp] theorem State.getV_setSt (s : State) (b : Byte) (r : Nibble) : (s.setSt b).getV r = s.getV r := rfl
@[simp] theorem State.getV_push (s : State) (a : Word) (r : Nibble) : (s.push a).getV r = s.getV r := rfl
@[simp] theorem State.getV_memWrite (s : State) (a : Nat) (b : Byte) (r : Nibble) :
    (s.memWrite a b).getV r = s.getV r := rfl
@[simp] theorem State.getV_setFb (s : State) (fb : FrameBuffer) (r : Nibble) : (s.setFb fb).getV r = s.getV r := rfl
@[simp] theorem State.getV_latch (s : State) (f : Fault) (r : Nibble) : (s.latch f).getV r = s.getV r := rfl
@[simp] theorem State.getV_timerTick (s : State) (r : Nibble) : s.timerTick.getV r = s.getV r := rfl
@[simp] theorem State.getV_draw (s : State) (r : Nibble) : s.draw.2.getV r = s.getV r := rfl

/-- The flag register after a flag write, and the others as before. -/
theorem State.getV_setFlag (s : State) (f : Bool) (q : Nibble) :
    (s.setFlag f).getV q = if q = Config.flagReg then flagByte f else s.getV q := State.getV_setV s _ q _

/-- Flag first, result second: the destination holds the result, the flag register the flag unless it is the
destination. -/
theorem State.getV_setFlagThen (s : State) (f : Bool) (x : Nibble) (b : Byte) (q : Nibble) :
    (s.setFlagThen f x b).getV q = if q = x then b else if q = Config.flagReg then flagByte f else s.getV q := by
  unfold State.setFlagThen
  rw [State.getV_setV, State.getV_setFlag]

/-! ### Memory through the state -/

@[simp] theorem State.memRead_setV (s : State) (r : Nibble) (b : Byte) (a : Nat) :
    (s.setV r b).memRead a = s.memRead a := rfl
@[simp] theorem State.memRead_setI (s : State) (w : Word) (a : Nat) : (s.setI w).memRead a = s.memRead a := rfl
@[simp] theorem State.memRead_setPc (s : State) (w : Word) (a : Nat) : (s.setPc w).memRead a = s.memRead a := rfl
@[simp] theorem State.memRead_setDt (s : State) (b : Byte) (a : Nat) : (s.setDt b).memRead a = s.memRead a := rfl
@[simp] theorem State.memRead_setSt (s : State) (b : Byte) (a : Nat) : (s.setSt b).memRead a = s.memRead a := rfl
@[simp] theorem State.memRead_push (s : State) (w : Word) (a : Nat) : (s.push w).memRead a = s.memRead a := rfl
@[simp] theorem State.memRead_setFb (s : State) (fb : FrameBuffer) (a : Nat) :
    (s.setFb fb).memRead a = s.memRead a := rfl
@[simp] theorem State.memRead_setFlag (s : State) (f : Bool) (a : Nat) : (s.setFlag f).memRead a = s.memRead a := rfl
@[simp] theorem State.memRead_latch (s : State) (f : Fault) (a : Nat) : (s.latch f).memRead a = s.memRead a := rfl
@[simp] theorem State.memRead_timerTick (s : State) (a : Nat) : s.timerTick.memRead a = s.memRead a := rfl
@[simp] theorem State.memRead_draw (s : State) (a : Nat) : s.draw.2.memRead a = s.memRead a := rfl

/-- A read after a one-byte store. -/
theorem State.memRead_memWrite {s : State} (h : Memory.wf s.mem = true) {a : Nat} (ha : a < Config.memSize) (b : Byte)
    (c : Nat) : (s.memWrite a b).memRead c = if c = a then b else s.memRead c := Memory.read_write h ha b c

/-- A read after a store of consecutive bytes that stays inside memory: the stored byte inside, the old byte outside. -/
theorem State.memRead_writeBytes {s : State} (h : Memory.wf s.mem = true) (a : Nat) (bs : List Byte)
    (ha : a + bs.length ≤ Config.memSize) (c : Nat) :
    (s.writeBytes a bs).memRead c = if a ≤ c ∧ c < a + bs.length then bs.getD (c - a) 0 else s.memRead c := by
  induction bs generalizing s a with
  | nil => simp only [State.writeBytes]; rw [if_neg]; simp
  | cons b bs ih =>
    simp only [List.length_cons] at ha
    have hw : Memory.wf (s.memWrite a b).mem = true := Memory.wf_write h a b
    simp only [State.writeBytes, List.length_cons]
    rw [ih hw (a + 1) (by omega), State.memRead_memWrite h (by omega)]
    by_cases hc : c = a
    · subst hc; simp
    · simp only [hc, if_false]
      by_cases hi : a + 1 ≤ c ∧ c < a + 1 + bs.length
      · have hs : c - a = (c - (a + 1)) + 1 := by omega
        rw [if_pos hi, if_pos ⟨by omega, by omega⟩, hs, List.getD_cons_succ]
      · rw [if_neg hi, if_neg (by omega)]

/-- A store of bytes changes memory alone, and keeps it canonical. -/
theorem State.writeBytes_eq (s : State) (a : Nat) (bs : List Byte) :
    s.writeBytes a bs = { s with mem := (s.writeBytes a bs).mem } ∧
    (Memory.wf s.mem = true → Memory.wf (s.writeBytes a bs).mem = true) := by
  induction bs generalizing s a with
  | nil => exact ⟨rfl, id⟩
  | cons b bs ih =>
    obtain ⟨he, hw⟩ := ih (s.memWrite a b) (a + 1)
    refine ⟨?_, fun h => hw (Memory.wf_write h a b)⟩
    simp only [State.writeBytes]
    exact he.trans rfl

/-- The bytes read from an address on: `n` of them, each where it stands. -/
theorem State.bytesAt_length (s : State) (a n : Nat) : (s.bytesAt a n).length = n := by
  induction n generalizing a with
  | zero => rfl
  | succ n ih => simp [State.bytesAt, ih]

theorem State.bytesAt_getD (s : State) (a n j : Nat) (h : j < n) : (s.bytesAt a n).getD j 0 = s.memRead (a + j) := by
  induction n generalizing a j with
  | zero => omega
  | succ n ih =>
    cases j with
    | zero => rfl
    | succ j =>
      simp only [State.bytesAt, List.getD_cons_succ]
      rw [ih (a + 1) j (by omega)]
      congr 1; omega

/-- Writes of consecutive registers: register `q` takes its byte, the others stay. -/
theorem State.getV_setRegs (s : State) (j : Nat) (bs : List Byte) (h : j + bs.length ≤ 16) (q : Nibble) :
    (s.setRegs j bs).getV q =
      if j ≤ q.toNat ∧ q.toNat < j + bs.length then bs.getD (q.toNat - j) 0 else s.getV q := by
  induction bs generalizing s j with
  | nil => simp only [State.setRegs]; rw [if_neg]; simp
  | cons b bs ih =>
    simp only [List.length_cons] at h
    simp only [State.setRegs, List.length_cons]
    rw [ih _ (j + 1) (by omega), State.getV_setV]
    have hj : (BitVec.ofNat 4 j).toNat = j := by simp; omega
    by_cases hq : q = BitVec.ofNat 4 j
    · have he : q.toNat = j := by rw [hq, hj]
      rw [if_pos hq, if_neg (by omega), if_pos (by omega), he, Nat.sub_self, List.getD_cons_zero]
    · have hne : q.toNat ≠ j := fun e => hq (BitVec.eq_of_toNat_eq (by rw [hj, e]))
      rw [if_neg hq]
      by_cases hi : j + 1 ≤ q.toNat ∧ q.toNat < j + 1 + bs.length
      · have hs : q.toNat - j = (q.toNat - (j + 1)) + 1 := by omega
        rw [if_pos hi, if_pos ⟨by omega, by omega⟩, hs, List.getD_cons_succ]
      · rw [if_neg hi, if_neg (by omega)]

/-- Writes of registers change the register file alone. -/
theorem State.setRegs_eq (s : State) (j : Nat) (bs : List Byte) :
    s.setRegs j bs = { s with v := (s.setRegs j bs).v } := by
  induction bs generalizing s j with
  | nil => rfl
  | cons b bs ih => exact (ih (s.setV (BitVec.ofNat 4 j) b) (j + 1)).trans rfl

theorem State.firstRegs_length (s : State) (x : Nibble) : (s.firstRegs x).length = x.toNat + 1 := by
  have := x.isLt
  simp [State.firstRegs]; omega

theorem State.firstRegs_getD (s : State) (x q : Nibble) (h : q.toNat ≤ x.toNat) :
    (s.firstRegs x).getD q.toNat 0 = s.getV q := by
  have hx := x.isLt
  have hq := q.isLt
  have hl : q.toNat < s.v.toList.length := by simpa using hq
  rw [List.getD_eq_getElem?_getD, State.firstRegs, List.getElem?_take_of_lt (by omega),
    List.getElem?_eq_getElem hl, Option.getD_some, Vector.getElem_toList]
  rfl

/-! ### The stack -/

/-- A pop answers the last entry and leaves the others, and nothing else changes. -/
theorem State.pop_eq {s : State} {rest : List Word} {a : Word} (h : s.stack = rest ++ [a]) :
    s.pop = some (a, { s with stack := rest }) := by
  simp [State.pop, h]

theorem State.pop_empty {s : State} (h : s.stack = []) : s.pop = none := by simp [State.pop, h]

/-! ### The ends of a step -/

@[simp] theorem State.continueAt_eq (s : State) (a : Word) : s.continueAt a = .next (s.setPc a) := rfl

theorem State.continueNext_eq (s : State) : s.continueNext = .next (s.setPc (s.pc + 2)) := rfl

/-- A skip changes `pc` alone. -/
theorem State.skipIf_eq (s : State) (c : Bool) : s.skipIf c = .next (s.setPc (if c then s.pc + 4 else s.pc + 2)) := by
  cases c <;> rfl

@[simp] theorem State.raise_eq (s : State) (f : Fault) : s.raise f = .next (s.latch f) := rfl

/-- The bounds check of the instructions that use `I` (R166). -/
theorem State.withinBounds_pos {s : State} {count : Nat} (h : s.i.toNat + count ≤ 4096) (op : Word) (go : Result) :
    s.withinBounds count op go = go := by
  unfold State.withinBounds reachesPastMemory Config.memSize
  rw [if_neg]; simp; omega

theorem State.withinBounds_zero (s : State) (op : Word) (go : Result) : s.withinBounds 0 op go = go := by
  unfold State.withinBounds reachesPastMemory; simp

theorem State.withinBounds_neg {s : State} {count : Nat} (hc : 0 < count) (h : 4096 < s.i.toNat + count) (op : Word)
    (go : Result) : s.withinBounds count op go = .next (s.latch (.executeError op .memoryOutOfBounds)) := by
  unfold State.withinBounds reachesPastMemory Config.memSize
  rw [if_pos]
  · rfl
  · simp; omega

/-! ### Effects -/

/-- Nothing but `pc` changed: every claim of effects holds. -/
theorem Effects.only_setPc (e : Effects) (s : State) (a : Word) : e.Only s (s.setPc a) := by
  simp [Effects.Only]

/-- A claim of effects does not look at `pc`. -/
theorem Effects.only_then_setPc {e : Effects} {s t : State} (h : e.Only s t) (a : Word) : e.Only s (t.setPc a) := h

/-! ### A cycle -/

/-- A cycle of a running core is one tick and one step (R40, `STEPS_PER_CYCLE` = 1). -/
theorem cycle_running {s : State} (h : s.fault = none) : cycle s = coreStep s.timerTick := by
  have hs : Config.stepsPerCycle = 1 := rfl
  have ht : s.timerTick.fault = none := h
  unfold cycle
  simp only [h, hs, coreSteps, ht]
  cases coreStep s.timerTick <;> rfl

/-- A cycle of a faulted core changes nothing (R37). -/
theorem cycle_faulted {s : State} {f : Fault} (h : s.fault = some f) : cycle s = .next s := by
  unfold cycle; simp [h]

/-- Everything a step of the core can do: fail in fetch, fail in decode, or execute an instruction (R41, R226). -/
theorem coreStep_cases (s : State) :
    (0x0FFE < s.pc.toNat ∧ coreStep s = .next (s.latch (.fetchError s.pc))) ∨
    (s.pc.toNat ≤ 0x0FFE ∧ (∃ e, decode s.fetchOpcode = .error e) ∧
      coreStep s = .next (s.latch (.unknownOpcode s.fetchOpcode))) ∨
    (s.pc.toNat ≤ 0x0FFE ∧ ∃ i, decode s.fetchOpcode = .ok i ∧ coreStep s = exec i s) := by
  unfold coreStep State.fetchFails
  by_cases h : 0x0FFE < s.pc.toNat
  · exact .inl ⟨h, by simp [h]⟩
  · cases hd : decode s.fetchOpcode with
    | ok i => exact .inr (.inr ⟨by omega, i, rfl, by simp [h]⟩)
    | error e => exact .inr (.inl ⟨by omega, ⟨e, rfl⟩, by simp [h]⟩)

/-- The host does nothing before this step. -/
theorem State.hostTurn_none {s : State} (h : s.hostTurns = []) : s.hostTurn = .ok s := by
  simp [State.hostTurn, h]

/-- The host's turn takes the first entry of its schedule and does its events. -/
theorem State.hostTurn_cons {s : State} {events : List HostEvent} {later : List (List HostEvent)}
    (h : s.hostTurns = events :: later) : s.hostTurn = State.hostEvents { s with hostTurns := later } events := by
  simp [State.hostTurn, h]

@[simp] theorem State.hostEvents_nil (s : State) : s.hostEvents [] = .ok s := rfl

/-- A key event is done, then the events after it. -/
@[simp] theorem State.hostEvents_setKey (s : State) (k : Nibble) (b : Bool) (events : List HostEvent) :
    s.hostEvents (.setKey k b :: events) = (s.setKey k b).hostEvents events := rfl

/-- A reset that ends a turn is the turn's whole effect. -/
@[simp] theorem State.hostEvents_reset (s : State) (image : List Byte) :
    s.hostEvents [.reset image] = s.restart image := by
  simp only [State.hostEvents, State.hostEvent]
  cases s.restart image <;> rfl

/-- A reset with an accepted image: everything as `resetWith` leaves it but the model's own two fields (R260). -/
theorem State.restart_eq {s r : State} {image : List Byte} (h : State.resetWith image = .ok r) :
    s.restart image = .ok { r with draws := s.draws, hostTurns := s.hostTurns } := by
  simp [State.restart, h]

/-- Which images a reset accepts (R262). -/
theorem State.resetWith_ok {image : List Byte} (h : image.length ≤ 3584) :
    State.resetWith image = .ok (State.reset.writeBytes Config.progBase image) := by
  simp [State.resetWith, imageWellFormed, Config.progMax, h]

/-- A step is one turn of the host and one cycle. -/
theorem step_eq {s s' : State} (h : s.hostTurn = .ok s') : step s = cycle s' := by
  simp [step, hostThenCycle, h]

end Sys2Proof.Machine
end

