-- ==== Sys2Proof/Laws/Display.lean ====
section
/-! SUPPORT. What the display primitives and a drawn sprite do, pixel by pixel. -/

namespace Sys2Proof.Machine

/-- Coordinates are reduced modulo the display's size. -/
theorem FrameBuffer.pixel_congr (fb : FrameBuffer) {x x' y y' : Nat} (hx : x % 64 = x' % 64) (hy : y % 32 = y' % 32) :
    fb.pixel x y = fb.pixel x' y' := by
  unfold FrameBuffer.pixel Config.dispH Config.dispW
  simp only [hx, hy]

theorem FrameBuffer.pixel_setPixel (fb : FrameBuffer) (x y : Nat) (b : Bool) (x' y' : Nat) :
    (fb.setPixel x y b).pixel x' y' = if x' % 64 = x % 64 ∧ y' % 32 = y % 32 then b else fb.pixel x' y' := by
  unfold FrameBuffer.pixel FrameBuffer.setPixel Config.dispH Config.dispW
  by_cases hy : y' % 32 = y % 32
  · by_cases hx : x' % 64 = x % 64
    · simp [hy, hx]
    · simp [hy, hx, Ne.symm hx]
  · simp [hy, Ne.symm hy]

/-- A flip toggles its pixel and no other, and says whether it was set (R33). -/
theorem FrameBuffer.pixel_flip (fb : FrameBuffer) (x y x' y' : Nat) :
    (fb.flip x y).1.pixel x' y' =
      if x' % 64 = x % 64 ∧ y' % 32 = y % 32 then !fb.pixel x' y' else fb.pixel x' y' := by
  unfold FrameBuffer.flip
  rw [FrameBuffer.pixel_setPixel]
  split
  · rename_i h
    rw [fb.pixel_congr h.1 h.2]
  · rfl

theorem FrameBuffer.flip_set (fb : FrameBuffer) (x y : Nat) : (fb.flip x y).2 = fb.pixel x y := rfl

/-- Every pixel of a cleared display is unset (R34). -/
theorem FrameBuffer.pixel_clear (fb : FrameBuffer) (x y : Nat) : fb.clear.pixel x y = false := by
  unfold FrameBuffer.clear FrameBuffer.pixel
  simp

/-- Displays with the same pixels are the same. -/
theorem FrameBuffer.ext_pixel {fb fb' : FrameBuffer} (h : ∀ x y, x < 64 → y < 32 → fb.pixel x y = fb'.pixel x y) :
    fb = fb' := by
  apply Vector.ext
  intro y hy
  apply Vector.ext
  intro x hx
  have := h x y hx hy
  unfold FrameBuffer.pixel Config.dispH Config.dispW at this
  simpa only [Nat.mod_eq_of_lt hx, Nat.mod_eq_of_lt hy] using this

/-- Whether the first `k` columns of a sprite byte cover a pixel. -/
def ColumnsCover (vx row : Nat) (b : Byte) (k x y : Nat) : Prop :=
  ∃ c, c < k ∧ (vx + c) % 64 = x % 64 ∧ row % 32 = y % 32 ∧ b.getLsbD (7 - c) = true

theorem columnsCover_succ (vx row : Nat) (b : Byte) (k x y : Nat) :
    ColumnsCover vx row b (k + 1) x y ↔ ColumnsCover vx row b k x y ∨
      ((vx + k) % 64 = x % 64 ∧ row % 32 = y % 32 ∧ b.getLsbD (7 - k) = true) := by
  constructor
  · rintro ⟨c, hc, h⟩
    rcases Nat.lt_succ_iff_lt_or_eq.mp hc with hc | hc
    · exact .inl ⟨c, hc, h⟩
    · subst hc; exact .inr h
  · rintro (⟨c, hc, h⟩ | h)
    · exact ⟨c, by omega, h⟩
    · exact ⟨k, by omega, h⟩

/-- No column of a row is covered twice, so a later column finds its pixel as it was (R184). -/
theorem not_columnsCover {vx row : Nat} {b : Byte} {k : Nat} (hk : k < 8) {x y : Nat} (hx : (vx + k) % 64 = x % 64) :
    ¬ ColumnsCover vx row b k x y := by
  rintro ⟨c, hc, h, -, -⟩
  omega

/-- The columns of a sprite byte: covered pixels toggle and no other, and the flag says whether a covered pixel was set
before (R181, R184). -/
theorem drawColumns_spec (vx row : Nat) (b : Byte) (k : Nat) (hk : k ≤ 8) (acc : FrameBuffer × Bool) :
    (∀ x y, ColumnsCover vx row b k x y → (drawColumns vx row b k acc).1.pixel x y = !acc.1.pixel x y) ∧
    (∀ x y, ¬ ColumnsCover vx row b k x y → (drawColumns vx row b k acc).1.pixel x y = acc.1.pixel x y) ∧
    ((drawColumns vx row b k acc).2 = true ↔
      acc.2 = true ∨ ∃ x y, ColumnsCover vx row b k x y ∧ acc.1.pixel x y = true) := by
  induction k with
  | zero =>
    refine ⟨fun x y h => ?_, fun x y _ => rfl, ?_⟩
    · obtain ⟨c, hc, -⟩ := h; omega
    · constructor
      · exact .inl
      · rintro (h | ⟨x, y, ⟨c, hc, -⟩, -⟩)
        · exact h
        · omega
  | succ k ih =>
    obtain ⟨h1, h2, h3⟩ := ih (by omega)
    by_cases hb : b.getLsbD (7 - k) = true
    · simp only [drawColumns, hb, if_true, FrameBuffer.pixel_flip, FrameBuffer.flip_set, Bool.or_eq_true, h3,
        columnsCover_succ, and_true]
      refine ⟨fun x y h => ?_, fun x y h => ?_, ?_⟩
      · rcases h with h | h
        · rw [if_neg, h1 x y h]
          rintro ⟨hx, -⟩
          exact not_columnsCover (by omega) hx.symm h
        · rw [if_pos ⟨h.1.symm, h.2.symm⟩, h2 x y (not_columnsCover (by omega) h.1)]
      · rw [not_or] at h
        rw [if_neg (fun e => h.2 ⟨e.1.symm, e.2.symm⟩), h2 x y h.1]
      · rw [h2 (vx + k) row (not_columnsCover (by omega) rfl)]
        constructor
        · rintro ((h | ⟨x, y, h, hp⟩) | h)
          · exact .inl h
          · exact .inr ⟨x, y, .inl h, hp⟩
          · exact .inr ⟨vx + k, row, .inr ⟨rfl, rfl⟩, h⟩
        · rintro (h | ⟨x, y, h | h, hp⟩)
          · exact .inl (.inl h)
          · exact .inl (.inr ⟨x, y, h, hp⟩)
          · refine .inr ?_
            rw [acc.1.pixel_congr h.1 h.2]; exact hp
    · simp only [drawColumns, hb, Bool.false_eq_true, if_false, columnsCover_succ, and_false, or_false]
      exact ⟨h1, h2, h3⟩

/-- Whether the rows of a sprite, from display row `row` down, cover a pixel. -/
def RowsCover (vx row : Nat) (sprite : List Byte) (x y : Nat) : Prop :=
  ∃ r, r < sprite.length ∧ ColumnsCover vx (row + r) (sprite.getD r 0) 8 x y

theorem rowsCover_cons (vx row : Nat) (b : Byte) (bs : List Byte) (x y : Nat) :
    RowsCover vx row (b :: bs) x y ↔ ColumnsCover vx row b 8 x y ∨ RowsCover vx (row + 1) bs x y := by
  constructor
  · rintro ⟨r, hr, h⟩
    cases r with
    | zero => exact .inl h
    | succ r =>
      refine .inr ⟨r, by simpa using hr, ?_⟩
      rw [show row + 1 + r = row + (r + 1) by omega]
      exact h
  · rintro (h | ⟨r, hr, h⟩)
    · exact ⟨0, by simp, h⟩
    · refine ⟨r + 1, by simpa using hr, ?_⟩
      rw [show row + (r + 1) = row + 1 + r by omega]
      exact h

/-- A sprite of at most 32 rows covers no pixel twice (R184). -/
theorem not_rowsCover {vx row : Nat} {b : Byte} {bs : List Byte} (hl : bs.length < 32) {x y : Nat}
    (h : ColumnsCover vx row b 8 x y) : ¬ RowsCover vx (row + 1) bs x y := by
  obtain ⟨c, -, -, hy, -⟩ := h
  rintro ⟨r, hr, c', -, -, hy', -⟩
  omega

/-- The rows of a sprite: covered pixels toggle and no other, and the flag says whether a covered pixel was set before
(R181, R184). -/
theorem drawRows_spec (vx row : Nat) (bs : List Byte) (hl : bs.length ≤ 32) (acc : FrameBuffer × Bool) :
    (∀ x y, RowsCover vx row bs x y → (drawRows vx row bs acc).1.pixel x y = !acc.1.pixel x y) ∧
    (∀ x y, ¬ RowsCover vx row bs x y → (drawRows vx row bs acc).1.pixel x y = acc.1.pixel x y) ∧
    ((drawRows vx row bs acc).2 = true ↔
      acc.2 = true ∨ ∃ x y, RowsCover vx row bs x y ∧ acc.1.pixel x y = true) := by
  induction bs generalizing row acc with
  | nil =>
    refine ⟨fun x y h => ?_, fun x y _ => rfl, ?_⟩
    · obtain ⟨r, hr, -⟩ := h; simp at hr
    · constructor
      · exact .inl
      · rintro (h | ⟨x, y, ⟨r, hr, -⟩, -⟩)
        · exact h
        · simp at hr
  | cons b bs ih =>
    simp only [List.length_cons] at hl
    obtain ⟨c1, c2, c3⟩ := drawColumns_spec vx row b 8 (by omega) acc
    obtain ⟨r1, r2, r3⟩ := ih (row + 1) (by omega) (drawColumns vx row b 8 acc)
    simp only [drawRows, rowsCover_cons, r3, c3]
    refine ⟨fun x y h => ?_, fun x y h => ?_, ?_⟩
    · rcases h with h | h
      · rw [r2 x y (not_rowsCover (by omega) h), c1 x y h]
      · have hn : ¬ ColumnsCover vx row b 8 x y := fun hc => not_rowsCover (by omega) hc h
        rw [r1 x y h, c2 x y hn]
    · rw [not_or] at h
      rw [r2 x y h.2, c2 x y h.1]
    · constructor
      · rintro ((h | ⟨x, y, h, hp⟩) | ⟨x, y, h, hp⟩)
        · exact .inl h
        · exact .inr ⟨x, y, .inl h, hp⟩
        · refine .inr ⟨x, y, .inr h, ?_⟩
          rwa [c2 x y (fun hc => not_rowsCover (by omega) hc h)] at hp
      · rintro (h | ⟨x, y, h | h, hp⟩)
        · exact .inl (.inl h)
        · exact .inl (.inr ⟨x, y, h, hp⟩)
        · refine .inr ⟨x, y, h, ?_⟩
          rwa [c2 x y (fun hc => not_rowsCover (by omega) hc h)]

/-- The rows that DRW reads cover what `State.Covers` says. -/
theorem rowsCover_bytesAt (s : State) (vx vy n x y : Nat) (hx : x < 64) (hy : y < 32) :
    RowsCover vx vy (s.bytesAt s.i.toNat n) x y ↔ s.Covers vx vy n x y := by
  constructor
  · rintro ⟨r, hr, c, hc, h1, h2, h3⟩
    rw [State.bytesAt_length] at hr
    rw [State.bytesAt_getD _ _ _ _ hr] at h3
    exact ⟨r, c, hr, hc, by omega, by omega, h3⟩
  · rintro ⟨r, c, hr, hc, h1, h2, h3⟩
    refine ⟨r, by rwa [State.bytesAt_length], c, hc, by omega, by omega, ?_⟩
    rwa [State.bytesAt_getD _ _ _ _ hr]

end Sys2Proof.Machine
end

