-- ==== Sys2Proof/Laws/Operands.lean ====
section
/-! SUPPORT. What the operand forms and the flag computations answer, as numbers; the lowest pressed key; and the cases
of the operations that can raise. -/

namespace Sys2Proof.Machine

/-! ### Operands -/

theorem addrWord_toNat (addr : Addr12) : (addrWord addr).toNat = addr.toNat := by
  have := addr.isLt
  simp [addrWord]; omega

/-- The sum of R114 never wraps. -/
theorem offsetTarget_toNat (addr : Addr12) (v0 : Byte) : (offsetTarget addr v0).toNat = addr.toNat + v0.toNat := by
  have := addr.isLt
  have := v0.isLt
  simp [offsetTarget]; omega

theorem keyOf_eq (b : Byte) : keyOf b = BitVec.ofNat 4 (b.toNat % 16) := by revert b; decide

theorem glyphAddress_toNat (b : Byte) : (glyphAddress b).toNat = b.toNat % 16 * 5 := by revert b; decide

theorem indexPlus_toNat (a : Word) (b : Byte) : (indexPlus a b).toNat = (a.toNat + b.toNat) % 65536 := by
  simp [indexPlus]

theorem bcdDigits_toNat (b : Byte) : (bcdDigits b).map BitVec.toNat = [b.toNat / 100, b.toNat / 10 % 10, b.toNat % 10] := by
  simp [bcdDigits]

/-! ### Timers and flags -/

theorem tickDown_toNat (b : Byte) : (tickDown b).toNat = b.toNat - 1 := by revert b; decide

theorem flagByte_toNat (f : Bool) : (flagByte f).toNat = if f then 1 else 0 := by cases f <;> rfl

theorem flagByte_cases (f : Bool) : flagByte f = 0 ∨ flagByte f = 1 := by cases f <;> simp [flagByte]

theorem bitZeroFlag_toNat (b : Byte) : (flagByte (bitZeroFlag b)).toNat = b.toNat % 2 := by revert b; decide

/-! ### Keys -/

theorem State.key_setKey (s : State) (k q : Nibble) (b : Bool) :
    (s.setKey k b).key q = if q = k then b else s.key q := by
  unfold State.key State.setKey
  by_cases h : q = k
  · subst h; simp
  · have hn : k.toNat ≠ q.toNat := fun e => h (BitVec.eq_of_toNat_eq e.symm)
    simp [h, hn]

theorem firstPressed_none (k : Nat) (bs : List Bool) (h : ∀ b ∈ bs, b = false) : firstPressed k bs = none := by
  induction bs generalizing k with
  | nil => rfl
  | cons b bs ih =>
    simp only [firstPressed, h b (by simp), Bool.false_eq_true, if_false]
    exact ih _ (fun c hc => h c (by simp [hc]))

theorem firstPressed_some (k j : Nat) (bs : List Bool) (hj : j < bs.length) (h : bs[j] = true)
    (hlow : ∀ n (hn : n < bs.length), n < j → bs[n] = false) : firstPressed k bs = some (BitVec.ofNat 4 (k + j)) := by
  induction bs generalizing k j with
  | nil => simp at hj
  | cons b bs ih =>
    cases j with
    | zero =>
      have hb : b = true := by simpa using h
      simp [firstPressed, hb]
    | succ j =>
      have hb : b = false := hlow 0 (by simp) (by omega)
      simp only [firstPressed, hb, Bool.false_eq_true, if_false]
      rw [ih (k + 1) j (by simpa using hj) (by simpa using h)
        (fun n hn hl => hlow (n + 1) (by simpa using hn) (by omega))]
      congr 2; omega

/-- No key is pressed: there is no lowest one. -/
theorem State.lowestKey_none {s : State} (h : ∀ k, s.key k = false) : s.lowestKey = none := by
  refine firstPressed_none 0 _ (fun b hb => ?_)
  obtain ⟨n, hn, rfl⟩ := List.getElem_of_mem hb
  have hn' : n < 16 := by simpa using hn
  simpa [State.key, Nat.mod_eq_of_lt hn'] using h (BitVec.ofNat 4 n)

/-- The lowest pressed key is the one below which none is pressed. -/
theorem State.lowestKey_some {s : State} {k : Nibble} (h : s.key k = true)
    (hlow : ∀ j : Nibble, j.toNat < k.toNat → s.key j = false) : s.lowestKey = some k := by
  have hk := k.isLt
  rw [State.lowestKey, firstPressed_some 0 k.toNat _ (by simpa using hk) (by simpa [State.key] using h)]
  · simp
  · intro n hn hl
    have hn' : n < 16 := by simpa using hn
    simpa [State.key, Nat.mod_eq_of_lt hn'] using hlow (BitVec.ofNat 4 n) (by simp; omega)

/-! ### The operations that can raise -/

/-- A bounds check either goes on, its range inside memory or empty, or raises. -/
theorem State.withinBounds_cases (s : State) (count : Nat) (op : Word) (go : Result) :
    ((count = 0 ∨ s.i.toNat + count ≤ 4096) ∧ s.withinBounds count op go = go) ∨
    (0 < count ∧ 4096 < s.i.toNat + count ∧
      s.withinBounds count op go = .next (s.latch (.executeError op .memoryOutOfBounds))) := by
  by_cases h0 : count = 0
  · subst h0; exact .inl ⟨.inl rfl, State.withinBounds_zero s op go⟩
  · by_cases h : s.i.toNat + count ≤ 4096
    · exact .inl ⟨.inr h, State.withinBounds_pos h op go⟩
    · exact .inr ⟨by omega, by omega, State.withinBounds_neg (by omega) (by omega) op go⟩

/-- A pop finds an empty stack or takes the last entry. -/
theorem State.pop_cases (s : State) :
    (s.stack = [] ∧ s.pop = none) ∨
    ∃ below a, s.stack = below ++ [a] ∧ s.pop = some (a, { s with stack := below }) := by
  rcases List.eq_nil_or_concat s.stack with h | ⟨below, a, h⟩
  · exact .inl ⟨h, State.pop_empty h⟩
  · rw [List.concat_eq_append] at h
    exact .inr ⟨below, a, h, State.pop_eq h⟩

end Sys2Proof.Machine
end

