-- ==== Sys2Proof/Laws/Exec.lean ====
section
/-! SUPPORT. The state that an instruction with a precondition leaves when it completes: `CALL`, `RET`, the transfers
through `I`, `DRW` and the wait. The others unfold to one operation. -/

namespace Sys2Proof.Machine

theorem exec_call {addr : Addr12} {s : State} (h : s.stack.length < 16) :
    exec (.call addr) s = .next ((s.push s.pc).setPc (addrWord addr)) := by
  have hn : ¬ 16 ≤ s.stack.length := by omega
  simp [exec, execCall, Config.stackDepth, hn]

theorem exec_ret {ign : Nibble} {s : State} {below : List Word} {a : Word} (h : s.stack = below ++ [a]) :
    exec (.ret ign) s = .next (State.setPc { s with stack := below } (a + 2)) := by
  simp only [exec, execRet, State.pop_eq h]
  rfl

theorem exec_ldBVx {x : Nibble} {s : State} (h : s.i.toNat + 3 ≤ 4096) :
    exec (.ldBVx x) s =
      .next ((s.writeBytes s.i.toNat (bcdDigits (s.getV x))).setPc (s.pc + 2)) := by
  rw [exec, execLdBVx, State.withinBounds_pos h, State.continueNext_eq, (State.writeBytes_eq s _ _).1]

theorem exec_ldMemIVx {x : Nibble} {s : State} (h : s.i.toNat + (x.toNat + 1) ≤ 4096) :
    exec (.ldMemIVx x) s =
      .next ((s.writeBytes s.i.toNat (s.firstRegs x)).setPc (s.pc + 2)) := by
  rw [exec, execLdMemIVx, State.withinBounds_pos (count := blockSize x) h, State.continueNext_eq, (State.writeBytes_eq s _ _).1]

theorem exec_ldVxMemI {x : Nibble} {s : State} (h : s.i.toNat + (x.toNat + 1) ≤ 4096) :
    exec (.ldVxMemI x) s =
      .next ((s.setRegs 0 (s.bytesAt s.i.toNat (x.toNat + 1))).setPc (s.pc + 2)) := by
  rw [exec, execLdVxMemI, State.withinBounds_pos (count := blockSize x) h, State.continueNext_eq, blockSize, State.setRegs_eq]

theorem exec_drwVxVyN {x y n : Nibble} {s : State} (h : n.toNat = 0 ∨ s.i.toNat + n.toNat ≤ 4096) :
    exec (.drwVxVyN x y n) s =
      let drawn := drawSprite s.fb (s.getV x).toNat (s.getV y).toNat (s.bytesAt s.i.toNat n.toNat)
      .next (((s.setFb drawn.1).setFlag drawn.2).setPc (s.pc + 2)) := by
  rcases h with h | h
  · rw [exec, execDrwVxVyN, h, State.withinBounds_zero]
    rfl
  · rw [exec, execDrwVxVyN, State.withinBounds_pos h]
    rfl

theorem exec_ldVxK {x k : Nibble} {s : State} (h : s.lowestKey = some k) :
    exec (.ldVxK x) s = .next ((s.setV x (k.setWidth 8)).setPc (s.pc + 2)) := by
  simp only [exec, execLdVxK, h]
  rfl

/-- Instructions one after the other: a first part that leaves a state, then the second part from it. -/
theorem execAll_append {is js : List Instr} {s t : State} (h : execAll is s = .next t) :
    execAll (is ++ js) s = execAll js t := by
  induction is generalizing s with
  | nil =>
    simp only [execAll, Host.Outcome.next.injEq] at h
    subst h; rfl
  | cons i is ih =>
    simp only [execAll, List.cons_append] at h ⊢
    cases hi : exec i s with
    | next s' => rw [hi] at h; exact ih h
    | fault f => rw [hi] at h; simp at h
    | refused r => rw [hi] at h; simp at h

end Sys2Proof.Machine
end

