-- ==== Sys2Proof/Laws/PerInstr.lean ====
section
/-! SUPPORT. The family EncodingFitsRow: every instruction's opcode is in its own row of the opcode map. -/

namespace Sys2Proof.Laws

/-- The row of `opcodeRows` that an instruction belongs to (R84). -/
def rowIndex : Instr → Nat
  | .cls _ => 0
  | .ret _ => 1
  | .jmp _ => 2
  | .call _ => 3
  | .seVxKk _ _ => 4
  | .sneVxKk _ _ => 5
  | .seVxVy _ _ _ => 6
  | .ldVxKk _ _ => 7
  | .addVxKk _ _ => 8
  | .ldVxVy _ _ => 9
  | .orVxVy _ _ => 10
  | .andVxVy _ _ => 11
  | .xorVxVy _ _ => 12
  | .addVxVy _ _ => 13
  | .subVxVy _ _ => 14
  | .shrVx _ _ => 15
  | .subnVxVy _ _ => 16
  | .shlVx _ _ => 17
  | .sneVxVy _ _ _ => 18
  | .ldIAddr _ => 19
  | .jpV0Addr _ => 20
  | .rndVxKk _ _ => 21
  | .drwVxVyN _ _ _ => 22
  | .skpVx _ => 23
  | .sknpVx _ => 24
  | .ldVxDt _ => 25
  | .ldVxK _ => 26
  | .ldDtVx _ => 27
  | .ldStVx _ => 28
  | .addIVx _ => 29
  | .ldFVx _ => 30
  | .ldBVx _ => 31
  | .ldMemIVx _ => 32
  | .ldVxMemI _ => 33

/-- The opcode of the instruction is selected by the instruction's own row: `op & mask = match` (R83, R84). -/
def EncodingFitsRow.Statement (i : Instr) : Prop :=
  ∃ mask fixed, opcodeRows[rowIndex i]? = some (mask, fixed) ∧ encode i &&& mask = fixed

theorem EncodingFitsRow.cls (ign : Nibble) : EncodingFitsRow.Statement (.cls ign) :=
  ⟨_, _, rfl, by simp [encode, or_and_mask]⟩

theorem EncodingFitsRow.ret (ign : Nibble) : EncodingFitsRow.Statement (.ret ign) :=
  ⟨_, _, rfl, by simp [encode, or_and_mask]⟩

theorem EncodingFitsRow.jmp (addr : Addr12) : EncodingFitsRow.Statement (.jmp addr) :=
  ⟨_, _, rfl, by simp [encode, or_and_mask]⟩

theorem EncodingFitsRow.call (addr : Addr12) : EncodingFitsRow.Statement (.call addr) :=
  ⟨_, _, rfl, by simp [encode, or_and_mask]⟩

theorem EncodingFitsRow.seVxKk (x : Nibble) (kk : Byte) : EncodingFitsRow.Statement (.seVxKk x kk) :=
  ⟨_, _, rfl, by simp [encode, or_and_mask]⟩

theorem EncodingFitsRow.sneVxKk (x : Nibble) (kk : Byte) : EncodingFitsRow.Statement (.sneVxKk x kk) :=
  ⟨_, _, rfl, by simp [encode, or_and_mask]⟩

theorem EncodingFitsRow.seVxVy (x y ign : Nibble) : EncodingFitsRow.Statement (.seVxVy x y ign) :=
  ⟨_, _, rfl, by simp [encode, or_and_mask]⟩

theorem EncodingFitsRow.ldVxKk (x : Nibble) (kk : Byte) : EncodingFitsRow.Statement (.ldVxKk x kk) :=
  ⟨_, _, rfl, by simp [encode, or_and_mask]⟩

theorem EncodingFitsRow.addVxKk (x : Nibble) (kk : Byte) : EncodingFitsRow.Statement (.addVxKk x kk) :=
  ⟨_, _, rfl, by simp [encode, or_and_mask]⟩

theorem EncodingFitsRow.ldVxVy (x y : Nibble) : EncodingFitsRow.Statement (.ldVxVy x y) :=
  ⟨_, _, rfl, by simp [encode, or_and_mask]⟩

theorem EncodingFitsRow.orVxVy (x y : Nibble) : EncodingFitsRow.Statement (.orVxVy x y) :=
  ⟨_, _, rfl, by simp [encode, or_and_mask]⟩

theorem EncodingFitsRow.andVxVy (x y : Nibble) : EncodingFitsRow.Statement (.andVxVy x y) :=
  ⟨_, _, rfl, by simp [encode, or_and_mask]⟩

theorem EncodingFitsRow.xorVxVy (x y : Nibble) : EncodingFitsRow.Statement (.xorVxVy x y) :=
  ⟨_, _, rfl, by simp [encode, or_and_mask]⟩

theorem EncodingFitsRow.addVxVy (x y : Nibble) : EncodingFitsRow.Statement (.addVxVy x y) :=
  ⟨_, _, rfl, by simp [encode, or_and_mask]⟩

theorem EncodingFitsRow.subVxVy (x y : Nibble) : EncodingFitsRow.Statement (.subVxVy x y) :=
  ⟨_, _, rfl, by simp [encode, or_and_mask]⟩

theorem EncodingFitsRow.shrVx (x ign : Nibble) : EncodingFitsRow.Statement (.shrVx x ign) :=
  ⟨_, _, rfl, by simp [encode, or_and_mask]⟩

theorem EncodingFitsRow.subnVxVy (x y : Nibble) : EncodingFitsRow.Statement (.subnVxVy x y) :=
  ⟨_, _, rfl, by simp [encode, or_and_mask]⟩

theorem EncodingFitsRow.shlVx (x ign : Nibble) : EncodingFitsRow.Statement (.shlVx x ign) :=
  ⟨_, _, rfl, by simp [encode, or_and_mask]⟩

theorem EncodingFitsRow.sneVxVy (x y ign : Nibble) : EncodingFitsRow.Statement (.sneVxVy x y ign) :=
  ⟨_, _, rfl, by simp [encode, or_and_mask]⟩

theorem EncodingFitsRow.ldIAddr (addr : Addr12) : EncodingFitsRow.Statement (.ldIAddr addr) :=
  ⟨_, _, rfl, by simp [encode, or_and_mask]⟩

theorem EncodingFitsRow.jpV0Addr (addr : Addr12) : EncodingFitsRow.Statement (.jpV0Addr addr) :=
  ⟨_, _, rfl, by simp [encode, or_and_mask]⟩

theorem EncodingFitsRow.rndVxKk (x : Nibble) (kk : Byte) : EncodingFitsRow.Statement (.rndVxKk x kk) :=
  ⟨_, _, rfl, by simp [encode, or_and_mask]⟩

theorem EncodingFitsRow.drwVxVyN (x y n : Nibble) : EncodingFitsRow.Statement (.drwVxVyN x y n) :=
  ⟨_, _, rfl, by simp [encode, or_and_mask]⟩

theorem EncodingFitsRow.skpVx (x : Nibble) : EncodingFitsRow.Statement (.skpVx x) :=
  ⟨_, _, rfl, by simp [encode, or_and_mask]⟩

theorem EncodingFitsRow.sknpVx (x : Nibble) : EncodingFitsRow.Statement (.sknpVx x) :=
  ⟨_, _, rfl, by simp [encode, or_and_mask]⟩

theorem EncodingFitsRow.ldVxDt (x : Nibble) : EncodingFitsRow.Statement (.ldVxDt x) :=
  ⟨_, _, rfl, by simp [encode, or_and_mask]⟩

theorem EncodingFitsRow.ldVxK (x : Nibble) : EncodingFitsRow.Statement (.ldVxK x) :=
  ⟨_, _, rfl, by simp [encode, or_and_mask]⟩

theorem EncodingFitsRow.ldDtVx (x : Nibble) : EncodingFitsRow.Statement (.ldDtVx x) :=
  ⟨_, _, rfl, by simp [encode, or_and_mask]⟩

theorem EncodingFitsRow.ldStVx (x : Nibble) : EncodingFitsRow.Statement (.ldStVx x) :=
  ⟨_, _, rfl, by simp [encode, or_and_mask]⟩

theorem EncodingFitsRow.addIVx (x : Nibble) : EncodingFitsRow.Statement (.addIVx x) :=
  ⟨_, _, rfl, by simp [encode, or_and_mask]⟩

theorem EncodingFitsRow.ldFVx (x : Nibble) : EncodingFitsRow.Statement (.ldFVx x) :=
  ⟨_, _, rfl, by simp [encode, or_and_mask]⟩

theorem EncodingFitsRow.ldBVx (x : Nibble) : EncodingFitsRow.Statement (.ldBVx x) :=
  ⟨_, _, rfl, by simp [encode, or_and_mask]⟩

theorem EncodingFitsRow.ldMemIVx (x : Nibble) : EncodingFitsRow.Statement (.ldMemIVx x) :=
  ⟨_, _, rfl, by simp [encode, or_and_mask]⟩

theorem EncodingFitsRow.ldVxMemI (x : Nibble) : EncodingFitsRow.Statement (.ldVxMemI x) :=
  ⟨_, _, rfl, by simp [encode, or_and_mask]⟩

end Sys2Proof.Laws
end

