-- ==== Sys2Proof/Tests/Slice0.lean ====
section
/-! SUPPORT. Tests of the model against the examples and vectors of 95_test_vectors.md (their ids stand in the comments),
and a witness for each statement that has hypotheses. Expected values are the spec's, or worked out by hand from its
rules. -/

namespace Sys2Proof.Tests

open Sys2Proof.Machine

/-! ## Helpers -/

/-- The machine after reset with one opcode at 0x200, as the vectors of 95_test_vectors.md begin. -/
def start (op : Nat) : State := State.reset.withFetchWord 16 op

/-- The outcome is a next state of which `p` holds. -/
def holds (r : Result) (p : State → Bool) : Bool :=
  match r with
  | .next t => p t
  | .fault _ => false
  | .refused _ => false

/-- One step from the opcode at 0x200, with registers set before it. -/
def after (op : Nat) (set : List (Nibble × Byte)) (p : State → Bool) : Bool :=
  holds (step (set.foldl (fun s e => s.setV e.1 e.2) (start op))) p

/-- The same, with `I` set too. -/
def afterAt (op : Nat) (index : Word) (set : List (Nibble × Byte)) (p : State → Bool) : Bool :=
  holds (step ((set.foldl (fun s e => s.setV e.1 e.2) (start op)).setI index)) p

/-! ## Well-formedness

Instructions have no check: their types carry every bound (30_encoding.md R89). The one check is the image's. -/

theorem test_wellFormed_refuses_3585_bytes : imageWellFormed (List.replicate 3585 0) = false := by
  rw [imageWellFormed, List.length_replicate]; decide

theorem test_wellFormed_accepts_3584_bytes : imageWellFormed (List.replicate 3584 0) = true := by
  rw [imageWellFormed, List.length_replicate]; decide

theorem test_wellFormed_instruction : Instr.wellFormed (.drwVxVyN 0xF 0xF 0xF) = true := rfl

/-! ## Decoding: the patterns of 30_encoding.md R84, written out bit by bit -/

theorem test_decode_display :
    decodeTableWord 16 0b0000_1010_1110_0000 = some (.cls 0xA) ∧
    decodeTableWord 16 0b1101_0001_0010_0101 = some (.drwVxVyN 1 2 5) := by decide

theorem test_decode_control :
    decodeTableWord 16 0b0000_0101_1110_1110 = some (.ret 5) ∧
    decodeTableWord 16 0b0001_0010_0000_0100 = some (.jmp 0x204) ∧
    decodeTableWord 16 0b0010_1010_1011_1100 = some (.call 0xABC) ∧
    decodeTableWord 16 0b1011_1111_0000_0001 = some (.jpV0Addr 0xF01) := by decide

theorem test_decode_skips :
    decodeTableWord 16 0b0011_0001_1010_0101 = some (.seVxKk 1 0xA5) ∧
    decodeTableWord 16 0b0100_0010_0101_1010 = some (.sneVxKk 2 0x5A) ∧
    decodeTableWord 16 0b0101_0001_0010_1111 = some (.seVxVy 1 2 0xF) ∧
    decodeTableWord 16 0b1001_0001_0010_1010 = some (.sneVxVy 1 2 0xA) ∧
    decodeTableWord 16 0b1110_0101_1001_1110 = some (.skpVx 5) ∧
    decodeTableWord 16 0b1110_0110_1010_0001 = some (.sknpVx 6) := by decide

theorem test_decode_loads_and_immediates :
    decodeTableWord 16 0b0110_1111_0101_0101 = some (.ldVxKk 0xF 0x55) ∧
    decodeTableWord 16 0b0111_0000_1111_1111 = some (.addVxKk 0 0xFF) ∧
    decodeTableWord 16 0b1100_0011_0000_1111 = some (.rndVxKk 3 0x0F) := by decide

theorem test_decode_group_8 :
    decodeTableWord 16 0b1000_0001_0010_0000 = some (.ldVxVy 1 2) ∧
    decodeTableWord 16 0b1000_0011_0100_0001 = some (.orVxVy 3 4) ∧
    decodeTableWord 16 0b1000_0101_0110_0010 = some (.andVxVy 5 6) ∧
    decodeTableWord 16 0b1000_0111_1000_0011 = some (.xorVxVy 7 8) ∧
    decodeTableWord 16 0b1000_1001_1010_0100 = some (.addVxVy 9 0xA) ∧
    decodeTableWord 16 0b1000_1011_1100_0101 = some (.subVxVy 0xB 0xC) ∧
    decodeTableWord 16 0b1000_1101_1110_0110 = some (.shrVx 0xD 0xE) ∧
    decodeTableWord 16 0b1000_1111_0001_0111 = some (.subnVxVy 0xF 1) ∧
    decodeTableWord 16 0b1000_0010_0011_1110 = some (.shlVx 2 3) := by decide

theorem test_decode_index_and_memory :
    decodeTableWord 16 0b1010_0011_0000_0001 = some (.ldIAddr 0x301) ∧
    decodeTableWord 16 0b1111_0001_0001_1110 = some (.addIVx 1) ∧
    decodeTableWord 16 0b1111_0010_0010_1001 = some (.ldFVx 2) ∧
    decodeTableWord 16 0b1111_0011_0011_0011 = some (.ldBVx 3) ∧
    decodeTableWord 16 0b1111_0100_0101_0101 = some (.ldMemIVx 4) ∧
    decodeTableWord 16 0b1111_0101_0110_0101 = some (.ldVxMemI 5) := by decide

theorem test_decode_keypad_and_timers :
    decodeTableWord 16 0b1111_0001_0000_0111 = some (.ldVxDt 1) ∧
    decodeTableWord 16 0b1111_0010_0000_1010 = some (.ldVxK 2) ∧
    decodeTableWord 16 0b1111_0011_0001_0101 = some (.ldDtVx 3) ∧
    decodeTableWord 16 0b1111_0100_0001_1000 = some (.ldStVx 4) := by decide

/-- E1, E2, E4 to E7. -/
theorem test_unknown_opcodes :
    ([0x0000, 0x00E1, 0x0123, 0x8008, 0x8009, 0x800A, 0x800B, 0x800C, 0x800D, 0x800F, 0xE09F, 0xE000, 0xE1A2, 0xF000,
      0xF066, 0xF075, 0xF085, 0xFFFF].all fun w => decodeTableWord 16 w == none) = true := by decide

/-- S10: the fields of 0xD125 and of 0xABCD. -/
theorem test_fields :
    opGroup 0xD125 = 0xD000 ∧ opX 0xD125 = 1 ∧ opY 0xD125 = 2 ∧ opN 0xD125 = 5 ∧ opAddr 0xD125 = 0x125 ∧
    opKk 0xD125 = 0x25 ∧ opGroup 0xABCD = 0xA000 ∧ opX 0xABCD = 0xB ∧ opAddr 0xABCD = 0xBCD ∧ opKk 0xABCD = 0xCD := by
  decide

/-- No opcode matches two rows of R84. -/
theorem test_rows_do_not_overlap :
    (opcodeRows.Pairwise fun a b => a.1 &&& b.1 &&& (a.2 ^^^ b.2) ≠ 0) ∧ opcodeRows.length = 34 := by decide

/-- E8, on the bytes of an instruction followed by others. -/
theorem test_decode_takes_two_bytes : decodeBytes [0xF1, 0x65, 0x12] = .ok (.ldVxMemI 1, [0x12]) := by decide

theorem test_encode : encode (.drwVxVyN 1 2 5) = 0xD125 ∧ encode (.shrVx 0 0xA) = 0x80A6 := by decide

/-! ## Control transfer -/

/-- F1. -/
theorem test_jmp : after 0x1204 [] (fun t => t.pc == 0x204) = true := by decide

/-- F4: no error yet at 0xFFF, then FetchError with `pc` unmoved. -/
theorem test_jmp_to_last_byte :
    after 0x1FFF [] (fun t => t.pc == 0xFFF && t.fault == none &&
      holds (step t) (fun u => u.fault == some (.fetchError 0xFFF) && u.pc == 0xFFF)) = true := by decide

/-- F6, at 0x200. -/
theorem test_call : after 0x2208 [] (fun t => t.pc == 0x208 && t.stack == [0x200]) = true := by decide

/-- The 17th cycle of F7. -/
theorem test_call_overflow :
    holds (step { start 0x2200 with stack := List.replicate 16 0x200 })
      (fun t => t.fault == some (.executeError 0x2200 .stackOverflow) && t.stack.length == 16 && t.pc == 0x200)
      = true := by decide

/-- F8, at 0x200. -/
theorem test_ret :
    holds (step { start 0x00EE with stack := [0x202] }) (fun t => t.pc == 0x204 && t.stack == []) = true := by decide

/-- E3: the ignored nibble is recorded. -/
theorem test_ret_underflow :
    after 0x05EE [] (fun t => t.fault == some (.executeError 0x05EE .stackUnderflow) && t.pc == 0x200) = true
      := by decide

/-- F9. -/
theorem test_jp : after 0xB300 [(0, 4)] (fun t => t.pc == 0x304) = true := by decide

/-- F10: no reduction. -/
theorem test_jp_beyond : after 0xBFFF [(0, 0xFF)] (fun t => t.pc == 0x10FE && t.fault == none) = true := by decide

/-- F11, F12. -/
theorem test_se_kk :
    (after 0x3100 [(1, 0)] (fun t => t.pc == 0x204) && after 0x3100 [(1, 1)] (fun t => t.pc == 0x202)) = true
      := by decide

/-- F13, F14. -/
theorem test_sne_kk :
    (after 0x4005 [(0, 9)] (fun t => t.pc == 0x204) && after 0x4005 [(0, 5)] (fun t => t.pc == 0x202)) = true
      := by decide

/-- F16, F17. -/
theorem test_se_vy :
    (after 0x512F [(1, 7), (2, 7)] (fun t => t.pc == 0x204) && after 0x5120 [(1, 7), (2, 8)] (fun t => t.pc == 0x202))
      = true := by decide

/-- F18, F19. -/
theorem test_sne_vy :
    (after 0x9120 [(1, 7), (2, 7)] (fun t => t.pc == 0x202) && after 0x912A [(1, 7), (2, 8)] (fun t => t.pc == 0x204))
      = true := by decide

/-! ## Load, arithmetic, logic, shift, random -/

/-- A1. -/
theorem test_ld_kk : after 0x6009 [] (fun t => t.getV 0 == 9 && t.pc == 0x202) = true := by decide

/-- A4: no carry flag. -/
theorem test_add_kk : after 0x70FF [(0, 1)] (fun t => t.getV 0 == 0 && t.getV 0xF == 0) = true := by decide

/-- A5. -/
theorem test_add_kk_to_vf : after 0x7F02 [(0xF, 0xFF)] (fun t => t.getV 0xF == 1) = true := by decide

/-- A6. -/
theorem test_ld_vy : after 0x8010 [(1, 0x3C)] (fun t => t.getV 0 == 0x3C) = true := by decide

/-- A7. -/
theorem test_or :
    after 0x8011 [(0, 0xF0), (1, 0x0F), (0xF, 1)] (fun t => t.getV 0 == 0xFF && t.getV 0xF == 1) = true := by decide

/-- A8. -/
theorem test_and : after 0x8012 [(0, 0xFC), (1, 0x3F)] (fun t => t.getV 0 == 0x3C) = true := by decide

/-- A9. -/
theorem test_xor : after 0x8013 [(0, 0xFF), (1, 0x0F)] (fun t => t.getV 0 == 0xF0) = true := by decide

/-- A10: source and destination the same. -/
theorem test_xor_self : after 0x8003 [(0, 0x5A)] (fun t => t.getV 0 == 0) = true := by decide

/-- S2, and A14: 255 is not above 255. -/
theorem test_add_carry :
    (after 0x8014 [(0, 250), (1, 10)] (fun t => t.getV 0 == 4 && t.getV 0xF == 1) &&
      after 0x8014 [(0, 0xFF), (1, 0)] (fun t => t.getV 0 == 0xFF && t.getV 0xF == 0)) = true := by decide

/-- A16, A18: VF as destination keeps the sum, VF as source is read before the flag. -/
theorem test_add_vf :
    (after 0x8F14 [(0xF, 0xC8), (1, 0x64)] (fun t => t.getV 0xF == 0x2C) &&
      after 0x81F4 [(1, 0x64), (0xF, 0xC8)] (fun t => t.getV 1 == 0x2C && t.getV 0xF == 1)) = true := by decide

/-- S4, S5. -/
theorem test_sub :
    (after 0x8015 [(0, 5), (1, 3)] (fun t => t.getV 0 == 2 && t.getV 0xF == 1) &&
      after 0x8015 [(0, 3), (1, 5)] (fun t => t.getV 0 == 254 && t.getV 0xF == 0)) = true := by decide

/-- A21: equal operands leave the flag 0 (C5). -/
theorem test_sub_equal : after 0x8015 [(0, 7), (1, 7), (0xF, 1)] (fun t => t.getV 0 == 0 && t.getV 0xF == 0) = true := by
  decide

/-- A25, A26. -/
theorem test_subn :
    (after 0x8017 [(0, 3), (1, 5)] (fun t => t.getV 0 == 2 && t.getV 0xF == 1) &&
      after 0x8017 [(0, 5), (1, 3)] (fun t => t.getV 0 == 0xFE && t.getV 0xF == 0)) = true := by decide

/-- A27. -/
theorem test_subn_equal : after 0x8017 [(0, 7), (1, 7), (0xF, 1)] (fun t => t.getV 0 == 0 && t.getV 0xF == 0) = true := by
  decide

/-- A30: y is ignored. -/
theorem test_shr :
    after 0x80A6 [(0, 5), (0xA, 0xFF)] (fun t => t.getV 0 == 2 && t.getV 0xF == 1 && t.getV 0xA == 0xFF) = true
      := by decide

/-- A32. -/
theorem test_shr_vf : after 0x8F06 [(0xF, 7)] (fun t => t.getV 0xF == 0) = true := by decide

/-- S11: the flag is bit 0, not bit 7. -/
theorem test_shl :
    (after 0x800E [(0, 0x81)] (fun t => t.getV 0 == 2 && t.getV 0xF == 1) &&
      after 0x800E [(0, 0x80)] (fun t => t.getV 0 == 0 && t.getV 0xF == 0)) = true := by decide

/-- A37. -/
theorem test_shl_vf : after 0x8F0E [(0xF, 7)] (fun t => t.getV 0xF == 2) = true := by decide

/-- A40: whatever the draw, a zero mask gives 0, and the next draw is another one. -/
theorem test_rnd_zero_mask : ∃ t, step (start 0xC000) = .next t ∧ t.getV 0 = 0 ∧ t.draws = 1 ∧ t.pc = 0x202 :=
  ⟨_, rfl, BitVec.and_zero, rfl, rfl⟩

/-! ## Index register and memory -/

/-- M1. -/
theorem test_ld_i : after 0xA300 [] (fun t => t.i == 0x300) = true := by decide

/-- M3, M4. -/
theorem test_add_i :
    (afterAt 0xF01E 0x0FFF [(0, 0xFF)] (fun t => t.i == 0x10FE && t.fault == none && t.getV 0xF == 0) &&
      afterAt 0xF01E 0xFFFF [(0, 2)] (fun t => t.i == 1)) = true := by decide

/-- M5, M6. -/
theorem test_ld_f :
    (after 0xF029 [(0, 7)] (fun t => t.i == 0x23) && after 0xF029 [(0, 0x1A)] (fun t => t.i == 0x32)) = true
      := by decide

/-- M8. -/
theorem test_ld_b :
    afterAt 0xF033 0xFFD [(0, 0xFF)]
      (fun t => t.memRead 0xFFD == 2 && t.memRead 0xFFE == 5 && t.memRead 0xFFF == 5 && t.pc == 0x202) = true
      := by decide

/-- M9. -/
theorem test_ld_b_beyond :
    afterAt 0xF033 0xFFE [(0, 0x7B)] (fun t => t.fault == some (.executeError 0xF033 .memoryOutOfBounds) &&
      t.memRead 0xFFE == 0 && t.memRead 0xFFF == 0 && t.pc == 0x200) = true := by decide

/-- M11. -/
theorem test_store :
    afterAt 0xF155 0x400 [(0, 0xAA), (1, 0xBB), (2, 0xCC)] (fun t => t.memRead 0x400 == 0xAA &&
      t.memRead 0x401 == 0xBB && t.memRead 0x402 == 0 && t.i == 0x400) = true := by decide

/-- M13. -/
theorem test_store_beyond :
    afterAt 0xFF55 0xFF1 [(0, 1)] (fun t => t.fault == some (.executeError 0xFF55 .memoryOutOfBounds) &&
      t.memRead 0xFF1 == 0) = true := by decide

/-- M14: font glyph 0. -/
theorem test_load :
    afterAt 0xF465 0 [(5, 7)] (fun t => t.getV 0 == 0xF0 && t.getV 1 == 0x90 && t.getV 4 == 0xF0 && t.getV 5 == 7 &&
      t.i == 0) = true := by decide

/-- M17. -/
theorem test_load_beyond :
    afterAt 0xFF65 0xFF1 [(0, 1)] (fun t => t.fault == some (.executeError 0xFF65 .memoryOutOfBounds) &&
      t.getV 0 == 1) = true := by decide

/-- The canonical form: writing the reset content back removes the cell (log 20). -/
theorem test_memory_canonical :
    ((State.reset.memWrite 0x300 7).memWrite 0x300 0).mem = [] ∧ (State.reset.memWrite 0 0xF0).mem = [] := by decide

/-! ## Display -/

/-- S6, W11. -/
theorem test_flip :
    (State.reset.fb.flip 70 40).2 = false ∧ (State.reset.fb.flip 70 40).1.pixel 6 8 = true ∧
    ((State.reset.fb.flip 70 40).1.flip 70 40).2 = true := by decide

/-- W9, with one pixel set before. -/
theorem test_cls :
    holds (step ((start 0x0FE0).setFb (State.reset.fb.flip 5 5).1))
      (fun t => t.fb.pixel 5 5 == false && t.pc == 0x202) = true := by decide

/-- W4: both edges wrap, pixel by pixel. -/
theorem test_drw_wraps :
    afterAt 0xD012 5 [(0, 0xFE), (1, 0xFF)] (fun t => t.fb.pixel 0 31 && t.fb.pixel 63 0 && t.fb.pixel 0 0 &&
      !t.fb.pixel 62 31 && !t.fb.pixel 63 31 && !t.fb.pixel 62 0 && t.getV 0xF == 0) = true := by decide

/-- W7. -/
theorem test_drw_beyond :
    afterAt 0xD009 0xFF8 [(0xF, 7)] (fun t => t.fault == some (.executeError 0xD009 .memoryOutOfBounds) &&
      t.getV 0xF == 7) = true := by decide

/-! ## Keypad and timers -/

/-- K1, K2. -/
theorem test_skp :
    (holds (step (((start 0xE09E).setV 0 0x25).setKey 5 true)) (fun t => t.pc == 0x204) &&
      after 0xE09E [(0, 0x25)] (fun t => t.pc == 0x202)) = true := by decide

/-- K3, K4. -/
theorem test_sknp :
    (holds (step (((start 0xE0A1).setV 0 0x25).setKey 5 true)) (fun t => t.pc == 0x202) &&
      after 0xE0A1 [(0, 0x25)] (fun t => t.pc == 0x204)) = true := by decide

/-- K5: waiting, while the timers tick. -/
theorem test_wait :
    holds (step ((start 0xF20A).setDt 5)) (fun t => t.pc == 0x200 && t.getV 2 == 0 && t.dt == 4) = true := by decide

/-- K6. -/
theorem test_wait_lowest_key :
    holds (step (((start 0xF20A).setKey 7 true).setKey 3 true)) (fun t => t.getV 2 == 3 && t.pc == 0x202) = true := by
  decide

/-- K9: the tick comes first. -/
theorem test_ld_vx_dt : holds (step ((start 0xF007).setDt 1)) (fun t => t.getV 0 == 0 && t.dt == 0) = true
      := by decide

/-- The first cycle of K10. -/
theorem test_ld_dt : after 0xF015 [(0, 0xFF)] (fun t => t.dt == 0xFF && t.st == 0) = true := by decide

/-- The first cycle of K11. -/
theorem test_ld_st : after 0xF018 [(0, 3)] (fun t => t.st == 3 && t.dt == 0) = true := by decide

/-- K12, K13. -/
theorem test_tick : (State.reset.setDt 5).timerTick = State.reset.setDt 4 ∧ State.reset.timerTick = State.reset
      := by decide

/-! ## Errors, the latch, reset and the host -/

/-- X3: the tick of the failing cycle stands, and a faulted core does not tick. -/
theorem test_latch :
    holds (step ((start 0x0000).setDt 5)) (fun t => t.fault == some (.unknownOpcode 0) && t.dt == 4 && t.pc == 0x200 &&
      holds (step t) (fun u => u == t)) = true := by decide

/-- X5: fetch at 0xFFE is inside memory. -/
theorem test_fetch_at_ffe :
    holds (step ((State.reset.setPc 0xFFE).withFetchWord 16 0x1200)) (fun t => t.pc == 0x200 && t.fault == none)
      = true := by decide

/-- X6: reset with nothing placed. -/
theorem test_reset_runs_nothing :
    holds (step State.reset) (fun t => t.fault == some (.unknownOpcode 0) && t.pc == 0x200) = true := by decide

/-- X9, the image of S1. -/
theorem test_reset_with_image :
    (match State.resetWith [0x60, 0x09, 0x70, 0x05, 0x12, 0x04] with
      | .ok s => s.pc == 0x200 && s.memRead 0x200 == 0x60 && s.memRead 0x205 == 4 && s.memRead 0x206 == 0 &&
          s.memRead 4 == 0xF0 && s.memRead 0x4E == 0x80 && s.memRead 0x50 == 0 && s.getV 0xF == 0
      | .error _ => false) = true := by decide

/-- R37 and R260: with an error latched a key event changes its key alone; a reset clears the latch, and nothing of the old
machine is left. -/
theorem test_only_reset_clears_the_latch :
    holds (step { ((start 0xF20A).setV 3 7).setDt 9 with
        fault := some (.unknownOpcode 0), hostTurns := [[.setKey 9 true], [.reset [0x12, 0x00]]] })
      (fun t => t.fault == some (.unknownOpcode 0) && t.key 9 && t.dt == 9 && t.pc == 0x200 &&
        holds (step t) (fun u => u.fault == none && !u.key 9 && u.dt == 0 && u.getV 3 == 0 && u.pc == 0x200))
      = true := by decide

/-- The host's events come before the cycle; a reset loses what went before. -/
theorem test_host_turn :
    holds (step { start 0xF20A with hostTurns := [[.setKey 9 true], [.reset [0x12, 0x00]]] })
      (fun t => t.getV 2 == 9 && holds (step t) (fun u => u.getV 2 == 0 && u.pc == 0x200 && u.hostTurns == []))
      = true := by decide

/-! ## Witnesses: a state and operands that meet the hypotheses of each statement, clause by clause, at the ends of its
ranges -/

/-- Reset with the stack `depth` entries deep. -/
def deep (depth : Nat) : State := { State.reset with stack := List.replicate depth 0x200 }

/-- The next state of an instruction satisfies `p`, and `I` is `index` before it. -/
def execAt (i : Instr) (index : Word) (p : State → Bool) : Bool := holds (exec i (State.reset.setI index)) p

theorem witness_EncodeOfDecodeIsTheOpcode : decode 0x80A6 = .ok (.shrVx 0 0xA) := by decide

theorem witness_IgnoredBitsChangeNoEffect : (deep 1).stack ≠ [] := by decide

theorem witness_FetchIsBigEndian :
    (start 0x6009).memRead (start 0x6009).pc.toNat = 0x60 ∧
    (start 0x6009).memRead ((start 0x6009).pc.toNat + 1) = 0x09 := by decide

/-- At 0x200 after a turn of the host, and at 0xFFE, the last address that a fetch may start at. -/
theorem witness_StepRunsTheDecodedInstruction :
    (∃ s', ({ start 0x1204 with hostTurns := [[.setKey 9 true]] } : State).hostTurn = .ok s' ∧ s'.fault = none ∧
      s'.pc.toNat ≤ 0x0FFE ∧ decodeBytes (s'.bytesAt s'.pc.toNat 2) = .ok (.jmp 0x204, [])) ∧
    (∃ s', ((State.reset.setPc 0xFFE).withFetchWord 16 0x1204).hostTurn = .ok s' ∧ s'.fault = none ∧
      s'.pc.toNat ≤ 0x0FFE ∧ decodeBytes (s'.bytesAt s'.pc.toNat 2) = .ok (.jmp 0x204, [])) :=
  ⟨⟨_, rfl, by decide, by decide, by decide⟩, ⟨_, rfl, by decide, by decide, by decide⟩⟩

theorem witness_TimersTickOnceACycle : State.reset.fault = none := rfl

/-- With no turn left, with a turn of two key events, and with an empty turn. -/
theorem witness_FaultedCoreIgnoresCycle :
    (State.reset.latch (.fetchError 0xFFF)).fault = some (.fetchError 0xFFF) ∧
    (State.reset.latch (.fetchError 0xFFF)).hostTurns = [] ∧
    ({ State.reset with fault := some (.unknownOpcode 0), hostTurns := [[.setKey 0xF true, .setKey 0 true]] } :
      State).hostTurns = ([(0xF, true), (0, true)].map fun e => HostEvent.setKey e.1 e.2) :: [] ∧
    ({ State.reset with fault := some (.unknownOpcode 0), hostTurns := [[]] } : State).hostTurns =
      (([] : List (Nibble × Bool)).map fun e => HostEvent.setKey e.1 e.2) :: [] := by decide

/-- At 0xFFF, the lowest address that fails, and at the highest. -/
theorem witness_FetchBeyondMemoryRaises :
    (∃ s', (State.reset.setPc 0xFFF).hostTurn = .ok s' ∧ s'.fault = none ∧ 0x0FFE < s'.pc.toNat) ∧
    (∃ s', (State.reset.setPc 0xFFFF).hostTurn = .ok s' ∧ s'.fault = none ∧ 0x0FFE < s'.pc.toNat) :=
  ⟨⟨_, rfl, by decide, by decide⟩, ⟨_, rfl, by decide, by decide⟩⟩

theorem witness_UnknownOpcodeRaises :
    (∃ s', State.reset.hostTurn = .ok s' ∧ s'.fault = none ∧ s'.pc.toNat ≤ 0x0FFE ∧
      decode s'.fetchOpcode = .error (.unknownOpcode s'.fetchOpcode)) ∧
    (∃ s', (State.reset.setPc 0xFFE).hostTurn = .ok s' ∧ s'.fault = none ∧ s'.pc.toNat ≤ 0x0FFE ∧
      decode s'.fetchOpcode = .error (.unknownOpcode s'.fetchOpcode)) :=
  ⟨⟨_, rfl, by decide, by decide, by decide⟩, ⟨_, rfl, by decide, by decide, by decide⟩⟩

theorem witness_ParkedProgramStaysParked : (start 0x1200).Parked ∧ (start 0x1200).hostTurns = [] :=
  ⟨⟨by decide, by decide, 0x200, by decide, by decide⟩, rfl⟩

/-- An image of six bytes, read at both ends of each range of addresses that the statement names. -/
theorem witness_ResetLeavesEveryValue :
    (match State.resetWith [0x60, 0x09, 0x70, 0x05, 0x12, 0x04] with
      | .ok s => s.memRead 0 == 0xF0 && s.memRead 0x4F == 0x80 && s.memRead 0x50 == 0 && s.memRead 0x1FF == 0 &&
          s.memRead 0x200 == 0x60 && s.memRead 0x205 == 0x04 && s.memRead 0x206 == 0 && s.memRead 0xFFF == 0
      | .error _ => false) = true ∧ (List.replicate 3584 (0 : Byte)).length ≤ 3584 := by
  refine ⟨by decide, ?_⟩
  rw [List.length_replicate]

/-- The clause of a reset of a running machine, with the longest image and with the empty one, and an error latched. -/
theorem witness_ResetLeavesEveryValue_restart :
    (List.replicate 3584 (0 : Byte)).length ≤ 3584 ∧
    ({ deep 16 with hostTurns := [[.reset (List.replicate 3584 0)]] } : State).hostTurns =
      [.reset (List.replicate 3584 0)] :: [] ∧
    ([] : List Byte).length ≤ 3584 ∧
    ({ State.reset with fault := some (.unknownOpcode 0), hostTurns := [[.reset []], []] } : State).hostTurns =
      [.reset []] :: [[]] := by
  refine ⟨?_, rfl, by decide, rfl⟩
  rw [List.length_replicate]

theorem witness_TooLargeImageIsRefused :
    3584 < (List.replicate 3585 (0 : Byte)).length ∧
    ({ State.reset with hostTurns := [[.reset (List.replicate 3585 0)]] } : State).hostTurns =
      [.reset (List.replicate 3585 0)] :: [] := by
  refine ⟨?_, rfl⟩
  rw [List.length_replicate]; decide

/-- The last event about key 5 decides. -/
theorem witness_HostTurnOfKeysChangesKeysAlone :
    ({ State.reset with hostTurns := [[.setKey 5 true, .setKey 5 false]] } : State).hostTurns =
      ([(5, true), (5, false)].map fun e => HostEvent.setKey e.1 e.2) :: [] := rfl

/-- A call that fills the stack from a state with the invariant. -/
theorem witness_StepKeepsTheInvariant :
    ({ start 0x2FFF with stack := List.replicate 15 0xFFE } : State).Inv ∧
    holds (step { start 0x2FFF with stack := List.replicate 15 0xFFE }) (fun t => t.stack.length == 16) = true := by
  decide

theorem witness_LoadedMachineHasTheInvariant : ∃ s, State.resetWith [0x12, 0x00] = .ok s := ⟨_, rfl⟩

/-- An instruction of each reason, on a running machine. -/
theorem witness_ErrorsArePrecise :
    State.reset.fault = none ∧
    holds (exec (.ret 5) State.reset) (fun t => t.fault == some (.executeError 0x05EE .stackUnderflow)) = true ∧
    holds (exec (.call 0) (deep 16)) (fun t => t.fault == some (.executeError 0x2000 .stackOverflow)) = true ∧
    execAt (.ldBVx 0) 0xFFE (fun t => t.fault == some (.executeError 0xF033 .memoryOutOfBounds)) = true := by decide

/-- The instructions that raise MemoryOutOfBounds, each at the lowest `I` that does. -/
theorem witness_OnlyTheListedInstructionsRaise :
    execAt (.drwVxVyN 0 0 15) 0xFF2 (fun t => t.fault == some (.executeError 0xD00F .memoryOutOfBounds)) = true ∧
    execAt (.ldMemIVx 15) 0xFF1 (fun t => t.fault == some (.executeError 0xFF55 .memoryOutOfBounds)) = true ∧
    execAt (.ldVxMemI 0) 0x1000 (fun t => t.fault == some (.executeError 0xF065 .memoryOutOfBounds)) = true
      := by decide

theorem witness_OnlyFlagInstructionsWriteVf :
    (Instr.addVxVy 0 1).destination ≠ some 0xF ∧ (Instr.addVxVy 0 1).writesFlag ∧
    holds (exec (.addVxVy 0 1) State.reset) (fun t => t.fault == none) = true ∧
    (Instr.ldVxKk 0xE 1).destination ≠ some 0xF ∧ ¬ (Instr.ldVxKk 0xE 1).writesFlag ∧
    holds (exec (.ldVxKk 0xE 1) State.reset) (fun t => t.fault == none) = true := by
  refine ⟨by decide, .inl ⟨0, 1, rfl⟩, by decide, by decide, ?_, by decide⟩
  simp [Instr.writesFlag]

theorem witness_OnlyClsAndDrwChangeTheDisplay :
    holds (exec (.drwVxVyN 0 0 1) State.reset) (fun t => t.fb.pixel 0 0 != State.reset.fb.pixel 0 0) = true
      := by decide

theorem witness_OnlyCallPushesAndOnlyRetPops :
    holds (exec (.call 0x300) (deep 15)) (fun t => t.stack != (deep 15).stack) = true ∧
    holds (exec (.ret 0) (deep 16)) (fun t => t.stack != (deep 16).stack) = true := by decide

theorem witness_OnlyTheTwoStoresChangeMemory :
    execAt (.ldMemIVx 0) 0 (fun t => t.memRead 0 != (State.reset.setI 0).memRead 0) = true ∧
    holds (exec (.ldBVx 0) ((State.reset.setV 0 1).setI 0xFFD)) (fun t => t.memRead 0xFFF != 0) = true := by decide

theorem witness_SpecialRegistersHaveTheirOwnWriters :
    holds (exec (.ldIAddr 1) State.reset) (fun t => t.i != State.reset.i) = true ∧
    holds (exec (.ldDtVx 0) (State.reset.setV 0 1)) (fun t => t.dt != State.reset.dt) = true ∧
    holds (exec (.ldStVx 0) (State.reset.setV 0 1)) (fun t => t.st != State.reset.st) = true ∧
    holds (exec (.rndVxKk 0 0) State.reset) (fun t => t.draws != State.reset.draws) = true := by decide

theorem witness_NoInstructionWritesTheKeys :
    holds (exec (.skpVx 0) (State.reset.setKey 3 true)) (fun t => t.key 3) = true := by decide

/-- The shallowest stack and the deepest that a call may find. -/
theorem witness_CallPushesItsOwnAddress : (deep 0).stack.length < 16 ∧ (deep 15).stack.length < 16 := by decide

theorem witness_RetGoesAfterTheCall :
    (deep 1).stack = [] ++ [0x200] ∧ (deep 16).stack = List.replicate 15 0x200 ++ [0x200] := by decide

theorem witness_StackErrorsChangeNothing : (deep 0).stack = [] ∧ 16 ≤ (deep 16).stack.length := by decide

/-- Sixteen calls on an empty stack, one call on fifteen entries. -/
theorem witness_NestedCallsUnwind :
    (List.replicate 16 (0x300 : Addr12) ≠ [] ∧
      (deep 0).stack.length + (List.replicate 16 (0x300 : Addr12)).length ≤ 16) ∧
    ([0xFFF] : List Addr12) ≠ [] ∧ (deep 15).stack.length + ([0xFFF] : List Addr12).length ≤ 16 := by decide

/-- The clause x ≠ 0xF, on the five instructions that write a flag and a result. -/
theorem witness_flag_clause :
    (0xE : Nibble) ≠ 0xF ∧
    holds (exec (.addVxVy 0xE 0xF) (State.reset.setV 0xF 2)) (fun t => t.getV 0xF == 0 && t.getV 0xE == 2) = true ∧
    holds (exec (.subVxVy 0xE 0xF) (State.reset.setV 0xE 2)) (fun t => t.getV 0xF == 1) = true ∧
    holds (exec (.subnVxVy 0xE 0xF) (State.reset.setV 0xF 2)) (fun t => t.getV 0xF == 1) = true ∧
    holds (exec (.shrVx 0xE 0) (State.reset.setV 0xE 3)) (fun t => t.getV 0xF == 1 && t.getV 0xE == 1) = true ∧
    holds (exec (.shlVx 0xE 0) (State.reset.setV 0xE 3)) (fun t => t.getV 0xF == 1 && t.getV 0xE == 6) = true
      := by decide

/-- The clause x = 0xF of the two shifts. -/
theorem witness_shift_clause :
    holds (exec (.shrVx 0xF 0) (State.reset.setV 0xF 3)) (fun t => t.getV 0xF == 0) = true ∧
    holds (exec (.shlVx 0xF 0) (State.reset.setV 0xF 3)) (fun t => t.getV 0xF == 2) = true := by decide

theorem witness_RandomByteStaysUnderTheMask :
    (0x0F : Byte).getLsbD 4 = false ∧ (0x7F : Byte).getLsbD 7 = false ∧ (0xFF : Byte).getLsbD 8 = false := by decide

theorem witness_DecimalDigitsAreStored :
    Memory.wf (State.reset.setI 0xFFD).mem = true ∧ (State.reset.setI 0xFFD).i.toNat ≤ 0xFFD := by decide

/-- Also for the load, whose only condition is the second. -/
theorem witness_RegistersAreStored :
    Memory.wf (State.reset.setI 0xFF0).mem = true ∧ (State.reset.setI 0xFF0).i.toNat + (0xF : Nibble).toNat ≤ 0xFFF := by
  decide

theorem witness_RegistersAreLoaded : (State.reset.setI 0xFFF).i.toNat + (0 : Nibble).toNat ≤ 0xFFF := by decide

/-- The registers are lost between the store and the load. -/
theorem witness_StoreThenLoadRestoresTheRegisters :
    ∃ t s', Memory.wf (start 0).mem = true ∧ ((start 0).setI 0xFFE).i.toNat + (1 : Nibble).toNat ≤ 0xFFF ∧
      exec (.ldMemIVx 1) ((start 0).setI 0xFFE) = .next t ∧ s' = t.setV 0 9 ∧ s'.mem = t.mem ∧
      s'.i = ((start 0).setI 0xFFE).i :=
  ⟨_, _, by decide, by decide, rfl, rfl, rfl, rfl⟩

/-- Each range at the lowest `I` that fails. -/
theorem witness_RangesPastMemoryRaise :
    0xFFF < (State.reset.setI 0xFFE).i.toNat + 2 ∧
    0xFFF < (State.reset.setI 0xFF1).i.toNat + (0xF : Nibble).toNat ∧
    0 < (1 : Nibble).toNat ∧ 0xFFF < (State.reset.setI 0x1000).i.toNat + (1 : Nibble).toNat - 1 := by decide

/-- An unset pixel at the last coordinates, and another pixel. -/
theorem witness_FlipTogglesOnePixel :
    State.reset.fb.pixel (63 % 64) (31 % 32) = false ∧ 0 < 64 ∧ 31 < 32 ∧ ¬ (0 = 63 % 64 ∧ 31 = 31 % 32) := by decide

/-- No rows with `I` past memory; the longest sprite that ends at 0xFFF; a covered pixel, set before, and one that is not
covered. -/
theorem witness_DrawXorsTheSprite :
    ((0 : Nibble).toNat = 0 ∨ (State.reset.setI 0xFFFF).i.toNat + (0 : Nibble).toNat - 1 ≤ 0xFFF) ∧
    ((15 : Nibble).toNat = 0 ∨ (State.reset.setI 0xFF1).i.toNat + (15 : Nibble).toNat - 1 ≤ 0xFFF) ∧
    (∃ s : State, s.Covers 62 31 2 0 31 ∧ s.fb.pixel 0 31 = true ∧ ¬ s.Covers 62 31 2 4 31) := by
  refine ⟨by decide, by decide, State.reset.setFb (State.reset.fb.flip 0 31).1, ⟨0, 2, by decide⟩, by decide, ?_⟩
  rintro ⟨r, c, hr, hc, hx, hy, hb⟩
  obtain rfl : r = 0 := by omega
  obtain rfl : c = 6 := by omega
  exact absurd hb (by decide)

theorem witness_DrawTwiceRestoresTheDisplay :
    (0xE : Nibble) ≠ 0xF ∧ ((15 : Nibble).toNat = 0 ∨ (State.reset.setI 0xFF1).i.toNat + (15 : Nibble).toNat - 1 ≤ 0xFFF) := by
  decide

/-- No key; the lowest key; the highest key alone. -/
theorem witness_WaitTakesTheLowestKey :
    (∀ k, State.reset.key k = false) ∧
    ((State.reset.setKey 0 true).key 0 = true ∧
      ∀ j : Nibble, j.toNat < (0 : Nibble).toNat → (State.reset.setKey 0 true).key j = false) ∧
    ((State.reset.setKey 0xF true).key 0xF = true ∧
      ∀ j : Nibble, j.toNat < (0xF : Nibble).toNat → (State.reset.setKey 0xF true).key j = false) := by decide

end Sys2Proof.Tests
end

section
/-! Proofs of the statements about the state's operations: the tick of the timers (R28), `flip` (R33), and `clear` with
`CLS` (R34, R180). -/

namespace Sys2Proof.Machine

/-! ### The tick -/

/-- The frame of a tick: the timers alone (R28). -/
theorem State.timerTick_only (s : State) : ({ delay := true, sound := true : Effects }).Only s s.timerTick := by
  simp [Effects.Only]

/-- A timer that is not above zero stays (R28). -/
theorem tickDown_toNat_eq_ite (b : Byte) : (tickDown b).toNat = if 0 < b.toNat then b.toNat - 1 else 0 := by
  rw [tickDown_toNat]
  split <;> omega

/-- The tick stands before all steps of a running core's cycle, however many there are (R28, R40). -/
theorem cycle_eq_coreSteps_timerTick {s : State} (h : s.fault = none) :
    cycle s = coreSteps Config.stepsPerCycle s.timerTick := by
  simp [cycle, h]

/-- Settles O9: each timer by the value of `tickDown`, the frame and the place of the tick by their own lemmas. -/
theorem timersTickOnceACycle : Obligations.TimersTickOnceACycle := by
  intro s
  exact ⟨tickDown_toNat_eq_ite s.dt, tickDown_toNat_eq_ite s.st, s.timerTick_only, s.timerTick_pc,
    cycle_eq_coreSteps_timerTick⟩

/-! ### Pixels -/

/-- Reduced coordinates name the same pixel (R33). -/
@[simp] theorem FrameBuffer.pixel_mod (fb : FrameBuffer) (x y : Nat) : fb.pixel (x % 64) (y % 32) = fb.pixel x y :=
  fb.pixel_congr (Nat.mod_mod x 64) (Nat.mod_mod y 32)

theorem FrameBuffer.pixel_flip_self (fb : FrameBuffer) (x y : Nat) :
    (fb.flip x y).1.pixel x y = !fb.pixel x y := by
  rw [FrameBuffer.pixel_flip, if_pos ⟨rfl, rfl⟩]

theorem FrameBuffer.pixel_flip_of_ne (fb : FrameBuffer) {x y x' y' : Nat} (hx : x' < 64) (hy : y' < 32)
    (hne : ¬ (x' = x % 64 ∧ y' = y % 32)) : (fb.flip x y).1.pixel x' y' = fb.pixel x' y' := by
  rw [FrameBuffer.pixel_flip, Nat.mod_eq_of_lt hx, Nat.mod_eq_of_lt hy, if_neg hne]

/-- Settles O55: what `flip` returns is the old pixel, so its second answer on an unset pixel is the toggled one. -/
theorem flipTogglesOnePixel : Obligations.FlipTogglesOnePixel := by
  intro fb x y
  refine ⟨?answer, ?toggled, fun x' y' hx hy hne => fb.pixel_flip_of_ne hx hy hne, ?twice⟩
  case answer => rw [FrameBuffer.flip_set, FrameBuffer.pixel_mod]
  case toggled => rw [FrameBuffer.pixel_mod, FrameBuffer.pixel_mod, FrameBuffer.pixel_flip_self]
  case twice =>
    intro hunset
    rw [FrameBuffer.pixel_mod] at hunset
    rw [FrameBuffer.flip_set, FrameBuffer.flip_set, FrameBuffer.pixel_flip_self, hunset]
    exact ⟨rfl, rfl⟩

/-! ### `CLS` -/

/-- `CLS` is the cleared display and the next `pc`, whatever the ignored nibble (R85, R180). -/
theorem exec_cls (ign : Nibble) (s : State) :
    exec (.cls ign) s = .next ((s.setFb s.fb.clear).setPc (s.pc + 2)) := rfl

/-- The frame of a write of the display. -/
theorem State.setFb_only (s : State) (fb : FrameBuffer) : ({ display := true : Effects }).Only s (s.setFb fb) := by
  simp [Effects.Only]

/-- Settles O56: the state after `CLS` is named by `exec_cls`, and a flip of it answers an unset pixel. -/
theorem clearUnsetsEveryPixel : Obligations.ClearUnsetsEveryPixel := by
  intro ign s
  refine ⟨_, exec_cls ign s, ?unset, ?firstSet, rfl, Effects.only_then_setPc (s.setFb_only _) _⟩
  case unset => exact fun x y => s.fb.pixel_clear x y
  case firstSet =>
    intro x y
    rw [FrameBuffer.flip_set]
    exact s.fb.pixel_clear x y

end Sys2Proof.Machine
end

section
/-! Proofs of the statements about memory: the big-endian fetch (R56). -/

namespace Sys2Proof.Machine

/-- The opcode at `pc` as a number: the byte at the lower address weighs 256 (R56). -/
theorem State.fetchOpcode_toNat (s : State) :
    s.fetchOpcode.toNat = (s.memRead s.pc.toNat).toNat * 256 + (s.memRead (s.pc.toNat + 1)).toNat :=
  opcodeOfBytes_toNat _ _

/-- Settles O7: the worked example is the formula at 0x60 and 0x09. -/
theorem fetchIsBigEndian : Obligations.FetchIsBigEndian := by
  refine ⟨State.fetchOpcode_toNat, fun s hhi hlo => BitVec.eq_of_toNat_eq ?_⟩
  rw [State.fetchOpcode_toNat, hhi, hlo]
  rfl

end Sys2Proof.Machine
end

section
/-! Proofs of the statements about the encoding: the fields of an opcode as numbers (R81). -/

namespace Sys2Proof.Machine

/-- A field as the model reads it, masked, shifted down by `p` and cut to `k` bits, is the number in the opcode's bits
`p` to `p + k - 1`; the mask must have ones at exactly these places from bit `p` on (R81). -/
theorem maskedField_toNat (op mask : Word) (p k : Nat) (hmask : mask.toNat >>> p = 2 ^ k - 1) :
    (((op &&& mask) >>> p).setWidth k).toNat = op.toNat / 2 ^ p % 2 ^ k := by
  rw [BitVec.toNat_setWidth, BitVec.toNat_ushiftRight, BitVec.toNat_and, Nat.shiftRight_and_distrib, hmask,
    Nat.and_two_pow_sub_one_eq_mod, Nat.mod_mod, Nat.shiftRight_eq_div_pow]

/-- A field at the opcode's bottom needs no shift. -/
theorem maskedLowField_toNat (op mask : Word) (k : Nat) (hmask : mask.toNat = 2 ^ k - 1) :
    ((op &&& mask).setWidth k).toNat = op.toNat % 2 ^ k := by
  simpa using maskedField_toNat op mask 0 k hmask

/-- The group is left in place: its mask shifts the low 12 bits out and zeros back in. -/
theorem opGroup_eq_shift (op : Word) : opGroup op = op >>> 12 <<< 12 := by
  rw [BitVec.shiftLeft_ushiftRight]
  rfl

theorem opGroup_toNat (op : Word) : (opGroup op).toNat = op.toNat / 4096 * 4096 := by
  have hlt := op.isLt
  rw [opGroup_eq_shift, BitVec.toNat_shiftLeft, BitVec.toNat_ushiftRight, Nat.shiftRight_eq_div_pow,
    Nat.shiftLeft_eq]
  omega

theorem opX_toNat (op : Word) : (opX op).toNat = op.toNat / 256 % 16 :=
  maskedField_toNat op 0x0F00#16 8 4 rfl

theorem opY_toNat (op : Word) : (opY op).toNat = op.toNat / 16 % 16 :=
  maskedField_toNat op 0x00F0#16 4 4 rfl

theorem opN_toNat (op : Word) : (opN op).toNat = op.toNat % 16 :=
  maskedLowField_toNat op 0x000F#16 4 rfl

theorem opAddr_toNat (op : Word) : (opAddr op).toNat = op.toNat % 4096 :=
  maskedLowField_toNat op 0x0FFF#16 12 rfl

theorem opKk_toNat (op : Word) : (opKk op).toNat = op.toNat % 256 :=
  maskedLowField_toNat op 0x00FF#16 8 rfl

/-- Settles O5: one equation per field, none of which looks at the instruction. -/
theorem fieldsAreTheMaskedBits : Obligations.FieldsAreTheMaskedBits := by
  intro op
  exact ⟨opGroup_toNat op, opX_toNat op, opY_toNat op, opN_toNat op, opAddr_toNat op, opKk_toNat op⟩

end Sys2Proof.Machine
end

section
/-! Proofs of the statements about control transfer (R110 to R118): jumps, `CALL` and `RET` with their errors, nested
calls, and the skips. -/

namespace Sys2Proof.Machine

/-! ### Jumps -/

theorem exec_jmp (addr : Addr12) (s : State) : exec (.jmp addr) s = .next (s.setPc (addrWord addr)) := rfl

theorem exec_jpV0Addr (addr : Addr12) (s : State) :
    exec (.jpV0Addr addr) s = .next (s.setPc (offsetTarget addr (s.getV 0))) := rfl

/-- Settles O30: `JMP` is a write of `pc`, and a 12-bit address is its own value as a word. -/
theorem jumpGoesToItsAddress : Obligations.JumpGoesToItsAddress := fun addr s =>
  ⟨_, exec_jmp addr s, addrWord_toNat addr, Effects.only_setPc _ s _⟩

/-- Settles O31: `JP V0,addr` is a write of `pc`, and the sum of 12 and 8 bits fits the word. -/
theorem offsetJumpAddsV0 : Obligations.OffsetJumpAddsV0 := fun addr s =>
  ⟨_, exec_jpV0Addr addr s, offsetTarget_toNat addr _, Effects.only_setPc _ s _⟩

/-! ### `CALL` and `RET` -/

/-- The frame of a write of the call stack. -/
theorem Effects.only_stack (s : State) (saved : List Word) :
    ({ stack := true : Effects }).Only s { s with stack := saved } := by
  simp [Effects.Only, State.getV, State.memRead]

/-- Settles O32: below the depth `CALL` is a push of its own address and a write of `pc`. -/
theorem callPushesItsOwnAddress : Obligations.CallPushesItsOwnAddress := fun addr s hroom =>
  ⟨_, exec_call hroom, addrWord_toNat addr, rfl, Effects.only_then_setPc (Effects.only_stack s _) _⟩

/-- Settles O33: on a stack with an entry `RET` takes that entry away and writes `pc`. -/
theorem retGoesAfterTheCall : Obligations.RetGoesAfterTheCall := fun _ s _ _ hstack =>
  ⟨_, exec_ret hstack, rfl, rfl, Effects.only_then_setPc (Effects.only_stack s _) _⟩

theorem exec_ret_of_empty {ign : Nibble} {s : State} (h : s.stack = []) :
    exec (.ret ign) s = .next (s.latch (.executeError (encode (.ret ign)) .stackUnderflow)) := by
  simp only [exec, execRet, State.pop_empty h, State.raise_eq]

theorem exec_call_of_full {addr : Addr12} {s : State} (h : 16 ≤ s.stack.length) :
    exec (.call addr) s = .next (s.latch (.executeError (encode (.call addr)) .stackOverflow)) :=
  if_pos h

/-- Settles O34: both errors are the latch alone. -/
theorem stackErrorsChangeNothing : Obligations.StackErrorsChangeNothing :=
  ⟨fun _ _ hempty => exec_ret_of_empty hempty, fun _ _ hfull => exec_call_of_full hfull⟩

/-! ### Nested calls -/

/-- Around a body that leaves the called routine's state as it was but for `pc`, a `CALL` and its `RET` leave the
caller's state as it was, at the instruction after the call. -/
theorem execAll_call_body_ret {addr : Addr12} {body : List Instr} {s : State} {p : Word} (hroom : s.stack.length < 16)
    (hbody : execAll body ((s.push s.pc).setPc (addrWord addr)) = .next ((s.push s.pc).setPc p)) :
    execAll (.call addr :: (body ++ [.ret 0])) s = .next (s.setPc (s.pc + 2)) := by
  have hret : exec (.ret 0) ((s.push s.pc).setPc p) = .next (s.setPc (s.pc + 2)) := exec_ret rfl
  simp only [execAll, exec_call hroom, execAll_append hbody, hret]

/-- Nested calls, the first outermost, and then one return for each. -/
def nestedCalls (targets : List Addr12) : List Instr :=
  targets.map Instr.call ++ List.replicate targets.length (Instr.ret 0)

/-- The first call and the last return enclose the other calls. -/
theorem nestedCalls_cons (addr : Addr12) (targets : List Addr12) :
    nestedCalls (addr :: targets) = .call addr :: (nestedCalls targets ++ [.ret 0]) := by
  simp [nestedCalls, List.replicate_succ']

/-- Nested calls that fit the stack change `pc` alone, and it goes after the first call. -/
theorem execAll_nestedCalls {targets : List Addr12} {s : State} (hroom : s.stack.length + targets.length ≤ 16) :
    execAll (nestedCalls targets) s = .next (s.setPc (if targets = [] then s.pc else s.pc + 2)) := by
  induction targets generalizing s with
  | nil => rfl
  | cons addr targets ih =>
    rw [List.length_cons] at hroom
    have hinner : ((s.push s.pc).setPc (addrWord addr)).stack.length + targets.length ≤ 16 := by
      simp only [State.setPc_stack, State.push_stack, List.length_append, List.length_singleton]
      omega
    rw [nestedCalls_cons, if_neg (List.cons_ne_nil _ _)]
    exact execAll_call_body_ret (by omega) (ih hinner)

/-- Settles O35, by induction on the targets: each call and its return enclose the calls after it. -/
theorem nestedCallsUnwind : Obligations.NestedCallsUnwind := by
  intro targets s hne hroom
  refine ⟨_, execAll_nestedCalls hroom, ?_, Effects.only_setPc _ s _⟩
  rw [if_neg hne]
  rfl

/-! ### Skips -/

/-- What a skip does, its test read as a proposition. -/
theorem State.skipIf_spec (s : State) {taken : Bool} {P : Prop} [Decidable P] (h : taken = true ↔ P) :
    ∃ t, s.skipIf taken = .next t ∧ t.pc = (if P then s.pc + 4 else s.pc + 2) ∧ Effects.none.Only s t :=
  ⟨_, s.skipIf_eq taken, if_congr h rfl rfl, Effects.only_setPc _ s _⟩

/-- Settles O36: both are skips, on equality with the immediate and on its opposite. -/
theorem skipsCompareWithTheImmediate : Obligations.SkipsCompareWithTheImmediate := fun _ _ s =>
  ⟨s.skipIf_spec beq_iff_eq, s.skipIf_spec bne_iff_ne⟩

/-- Settles O37: both are skips, on equality of the registers and on its opposite. -/
theorem skipsCompareRegisters : Obligations.SkipsCompareRegisters := fun _ _ _ s =>
  ⟨s.skipIf_spec beq_iff_eq, s.skipIf_spec bne_iff_ne⟩

end Sys2Proof.Machine
end

section
/-! The invariant of the machine through the state's operations, the ends of a step, the host's turn, and so through a
step: memory stays canonical, the stack within its depth and its entries fetched addresses, `pc` at most 0x10FE. -/

namespace Sys2Proof.Machine

/-! ### The invariant through the state's operations -/

theorem State.Inv.setPc {s : State} (h : s.Inv) {a : Word} (ha : a.toNat ≤ 0x10FE) : (s.setPc a).Inv := by
  obtain ⟨hmem, hdepth, hsaved, -⟩ := h
  exact ⟨hmem, hdepth, hsaved, ha⟩

/-- Storing anywhere keeps the invariant: only memory changes, and it stays canonical. -/
theorem State.Inv.writeBytes {s : State} (h : s.Inv) (a : Nat) (bs : List Byte) : (s.writeBytes a bs).Inv := by
  obtain ⟨hframe, hwf⟩ := s.writeBytes_eq a bs
  obtain ⟨hmem, hrest⟩ := h
  rw [hframe]
  exact ⟨hwf hmem, hrest⟩

theorem State.Inv.setRegs {s : State} (h : s.Inv) (j : Nat) (bs : List Byte) : (s.setRegs j bs).Inv := by
  rw [State.setRegs_eq]
  exact h

/-- A push of a fetched address below the depth of 16. -/
theorem State.Inv.push {s : State} (h : s.Inv) {a : Word} (hroom : s.stack.length < Config.stackDepth)
    (ha : a.toNat ≤ 0x0FFE) : (s.push a).Inv := by
  obtain ⟨hmem, -, hsaved, hpc⟩ := h
  refine ⟨hmem, ?depth, ?saved, hpc⟩
  case depth => simpa using hroom
  case saved => simpa [ha] using hsaved

/-- What a pop finds is a fetched address, and the stack below it is as good as before. -/
theorem State.Inv.pop {s : State} (h : s.Inv) {below : List Word} {a : Word} (hstack : s.stack = below ++ [a]) :
    a.toNat ≤ 0x0FFE ∧ State.Inv { s with stack := below } := by
  obtain ⟨hmem, hdepth, hsaved, hpc⟩ := h
  rw [hstack, List.length_append] at hdepth
  rw [hstack, List.all_append, Bool.and_eq_true] at hsaved
  obtain ⟨hbelow, ha⟩ := hsaved
  exact ⟨by simpa using ha, hmem, Nat.le_of_add_right_le hdepth, hbelow, hpc⟩

/-! ### The invariant through the ends of a step -/

/-- A next state that the result answers has the invariant. -/
def LeadsToInv (r : Result) : Prop := ∀ t, r = .next t → t.Inv

theorem leadsToInv_next {s : State} (h : s.Inv) : LeadsToInv (.next s) := by
  rintro t ⟨⟩
  exact h

/-- An error changes the latch, of which the invariant does not speak. -/
theorem leadsToInv_raise {s : State} (h : s.Inv) (f : Fault) : LeadsToInv (s.raise f) := leadsToInv_next h

theorem leadsToInv_continueAt {s : State} (h : s.Inv) {a : Word} (ha : a.toNat ≤ 0x10FE) :
    LeadsToInv (s.continueAt a) := leadsToInv_next (h.setPc ha)

/-- The longest way from a fetched instruction to the next one, a skip's, stays below the bound of `pc`. -/
theorem toNat_add_le_of_fetched {a k : Word} (ha : a.toNat ≤ 0x0FFE) (hk : k.toNat ≤ 4) :
    (a + k).toNat ≤ 0x10FE := by
  have hsum : (a + k).toNat ≤ a.toNat + k.toNat := BitVec.toNat_add a k ▸ Nat.mod_le _ _
  omega

theorem leadsToInv_continueNext {s : State} (h : s.Inv) (hpc : s.pc.toNat ≤ 0x0FFE) :
    LeadsToInv s.continueNext := leadsToInv_continueAt h (toNat_add_le_of_fetched hpc (by decide))

theorem leadsToInv_skipIf {s : State} (h : s.Inv) (hpc : s.pc.toNat ≤ 0x0FFE) (taken : Bool) :
    LeadsToInv (s.skipIf taken) := by
  cases taken with
  | false => exact leadsToInv_continueNext h hpc
  | true => exact leadsToInv_continueAt h (toNat_add_le_of_fetched hpc (by decide))

theorem leadsToInv_withinBounds {s : State} (h : s.Inv) (count : Nat) (op : Word) {go : Result}
    (hgo : LeadsToInv go) : LeadsToInv (s.withinBounds count op go) := by
  rcases s.withinBounds_cases count op go with ⟨-, heq⟩ | ⟨-, -, heq⟩
  · rw [heq]
    exact hgo
  · rw [heq]
    exact leadsToInv_raise h _

/-! ### The invariant through the instructions -/

theorem addrWord_le (addr : Addr12) : (addrWord addr).toNat ≤ 0x10FE := by
  have haddr := addr.isLt
  rw [addrWord_toNat]
  omega

/-- The largest value that any rule gives `pc` is the sum of 0xFFF and 0xFF (R114). -/
theorem offsetTarget_le (addr : Addr12) (v0 : Byte) : (offsetTarget addr v0).toNat ≤ 0x10FE := by
  have haddr := addr.isLt
  have hv0 := v0.isLt
  rw [offsetTarget_toNat]
  omega

theorem leadsToInv_ret {s : State} (h : s.Inv) (ign : Nibble) : LeadsToInv (exec (.ret ign) s) := by
  rcases s.pop_cases with ⟨hempty, -⟩ | ⟨below, a, hstack, -⟩
  · rw [exec_ret_of_empty hempty]
    exact leadsToInv_raise h _
  · obtain ⟨ha, hbelow⟩ := h.pop hstack
    rw [exec_ret hstack]
    exact leadsToInv_continueAt hbelow (toNat_add_le_of_fetched ha (by decide))

theorem leadsToInv_call {s : State} (h : s.Inv) (hpc : s.pc.toNat ≤ 0x0FFE) (addr : Addr12) :
    LeadsToInv (exec (.call addr) s) := by
  rcases Nat.lt_or_ge s.stack.length 16 with hroom | hfull
  · rw [exec_call hroom]
    exact leadsToInv_continueAt (h.push hroom hpc) (addrWord_le addr)
  · rw [exec_call_of_full hfull]
    exact leadsToInv_raise h _

theorem exec_ldVxK_of_none {x : Nibble} {s : State} (h : s.lowestKey = none) :
    exec (.ldVxK x) s = .next (s.setPc s.pc) := by
  simp only [exec, execLdVxK, h, State.continueAt_eq]

theorem leadsToInv_ldVxK {s : State} (h : s.Inv) (hpc : s.pc.toNat ≤ 0x0FFE) (x : Nibble) :
    LeadsToInv (exec (.ldVxK x) s) := by
  cases hkey : s.lowestKey with
  | none =>
    rw [exec_ldVxK_of_none hkey]
    exact leadsToInv_next h
  | some k =>
    rw [exec_ldVxK hkey]
    exact leadsToInv_continueNext (s := s.setV x (k.setWidth 8)) h hpc

/-- Every instruction that was fetched keeps the invariant. The registers, `I`, the timers, the display and the draws do
not stand in it, so an instruction that writes these alone ends as `continueNext` does. -/
theorem leadsToInv_exec {s : State} (h : s.Inv) (hpc : s.pc.toNat ≤ 0x0FFE) (i : Instr) :
    LeadsToInv (exec i s) := by
  cases i with
  | ret ign => exact leadsToInv_ret h ign
  | jmp addr => exact leadsToInv_continueAt h (addrWord_le addr)
  | jpV0Addr addr => exact leadsToInv_continueAt h (offsetTarget_le addr _)
  | call addr => exact leadsToInv_call h hpc addr
  | seVxKk | sneVxKk | seVxVy | sneVxVy | skpVx | sknpVx => exact leadsToInv_skipIf h hpc _
  | ldVxK x => exact leadsToInv_ldVxK h hpc x
  | drwVxVyN => exact leadsToInv_withinBounds h _ _ (leadsToInv_continueNext h hpc)
  | ldBVx | ldMemIVx =>
    refine leadsToInv_withinBounds h _ _ (leadsToInv_continueNext (h.writeBytes _ _) ?_)
    rw [(s.writeBytes_eq _ _).1]
    exact hpc
  | ldVxMemI =>
    refine leadsToInv_withinBounds h _ _ (leadsToInv_continueNext (h.setRegs _ _) ?_)
    rw [State.setRegs_eq]
    exact hpc
  | cls | ldVxKk | addVxKk | ldVxVy | orVxVy | andVxVy | xorVxVy | addVxVy | subVxVy | shrVx | subnVxVy | shlVx
  | ldIAddr | rndVxKk | ldVxDt | ldDtVx | ldStVx | addIVx | ldFVx => exact leadsToInv_continueNext h hpc

/-! ### The invariant through a cycle and the host's turn -/

theorem leadsToInv_coreStep {s : State} (h : s.Inv) : LeadsToInv (coreStep s) := by
  rcases coreStep_cases s with ⟨-, heq⟩ | ⟨-, -, heq⟩ | ⟨hpc, i, -, heq⟩
  · exact heq ▸ leadsToInv_raise h _
  · exact heq ▸ leadsToInv_raise h _
  · exact heq ▸ leadsToInv_exec h hpc i

theorem leadsToInv_cycle {s : State} (h : s.Inv) : LeadsToInv (cycle s) := by
  cases hfault : s.fault with
  | some f => exact cycle_faulted hfault ▸ leadsToInv_next h
  | none => exact cycle_running hfault ▸ leadsToInv_coreStep (s := s.timerTick) h

theorem State.reset_inv : State.reset.Inv := by decide

/-- An accepted image leaves the invariant: its bytes are stores to the reset state. -/
theorem State.resetWith_inv {image : List Byte} {r : State} (hr : State.resetWith image = .ok r) : r.Inv := by
  unfold State.resetWith at hr
  split at hr
  · cases hr
    exact State.reset_inv.writeBytes _ _
  · cases hr

theorem State.restart_inv {s r : State} {image : List Byte} (hr : s.restart image = .ok r) : r.Inv := by
  unfold State.restart at hr
  split at hr
  case h_1 r' hr' =>
    cases hr
    have hinv := State.resetWith_inv hr'
    exact hinv
  case h_2 => cases hr

theorem State.Inv.hostEvent {s s' : State} (h : s.Inv) {e : HostEvent} (he : s.hostEvent e = .ok s') : s'.Inv := by
  cases e with
  | setKey k b =>
    cases he
    exact h
  | reset image => exact State.restart_inv he

theorem State.Inv.hostEvents {s s' : State} (h : s.Inv) {es : List HostEvent} (hes : s.hostEvents es = .ok s') :
    s'.Inv := by
  induction es generalizing s with
  | nil =>
    cases hes
    exact h
  | cons e es ih =>
    unfold State.hostEvents at hes
    split at hes
    case h_1 t ht => exact ih (h.hostEvent ht) hes
    case h_2 => cases hes

theorem State.Inv.hostTurn {s s' : State} (h : s.Inv) (ht : s.hostTurn = .ok s') : s'.Inv := by
  cases hturns : s.hostTurns with
  | nil =>
    rw [State.hostTurn_none hturns] at ht
    cases ht
    exact h
  | cons es later =>
    rw [State.hostTurn_cons hturns] at ht
    exact State.Inv.hostEvents (s := { s with hostTurns := later }) h ht

/-- A step is a cycle after the host's turn, or it is refused with the turn. -/
theorem step_cases (s : State) :
    (∃ s', s.hostTurn = .ok s' ∧ step s = cycle s') ∨
    (∃ r, s.hostTurn = .error r ∧ step s = .refused (.imageRefused r)) := by
  cases hturn : s.hostTurn with
  | ok s' => exact .inl ⟨s', rfl, step_eq hturn⟩
  | error r => exact .inr ⟨r, rfl, by simp [step, hostThenCycle, hturn]⟩

/-- Settles O18: the host's turn keeps the invariant, and so does the cycle after it; a refused turn answers no next
state. -/
theorem stepKeepsTheInvariant : Obligations.StepKeepsTheInvariant := by
  intro s s' h hstep
  rcases step_cases s with ⟨t, hturn, heq⟩ | ⟨r, -, heq⟩
  · exact leadsToInv_cycle (h.hostTurn hturn) s' (heq ▸ hstep)
  · rw [heq] at hstep
    cases hstep

end Sys2Proof.Machine
end

section
/-! Proofs of the statements about register loads and the immediate addition (R130, R131, R135). -/

namespace Sys2Proof.Machine

/-- The frame of a write of a general register. -/
theorem State.setV_only (s : State) (x : Nibble) (b : Byte) : (Effects.reg x).Only s (s.setV x b) := by
  have hothers : ∀ r, (Effects.reg x).regs r = false → (s.setV x b).getV r = s.getV r :=
    fun r hr => s.getV_setV_ne (beq_eq_false_iff_ne.mp hr) b
  refine ⟨hothers, ?_⟩
  simp

/-- What an instruction does that writes one register and goes on to the next instruction. -/
theorem State.setV_continueNext_spec (s : State) (x : Nibble) (b : Byte) :
    ∃ t, (s.setV x b).continueNext = .next t ∧
      t.getV x = b ∧ t.pc = s.pc + 2 ∧ (Effects.reg x).Only s t :=
  ⟨_, (s.setV x b).continueNext_eq, s.getV_setV_self x b, rfl, Effects.only_then_setPc (s.setV_only x b) _⟩

/-- Settles O39: both are a write of Vx, one of the immediate and one of Vy. -/
theorem loadsWriteTheirRegister : Obligations.LoadsWriteTheirRegister := fun x y kk s =>
  ⟨s.setV_continueNext_spec x kk, s.setV_continueNext_spec x (s.getV y)⟩

/-- Settles O40: `ADD Vx,kk` is a write of Vx alone, whose byte is the sum reduced to 8 bits. -/
theorem addImmediateWrapsWithoutFlag : Obligations.AddImmediateWrapsWithoutFlag := by
  intro x kk s
  obtain ⟨t, hexec, hsum, hpc, hframe⟩ := s.setV_continueNext_spec x (s.getV x + kk)
  exact ⟨t, hexec, by rw [hsum, BitVec.toNat_add], hpc, hframe⟩

end Sys2Proof.Machine
end

section
/-! Proofs of the statements about the index register and memory (R160 to R166): the three writes of `I`, the stores of
digits and registers, the block load, and the ranges that reach past 0xFFF. -/

namespace Sys2Proof.Machine

/-! ### Writes of `I` -/

/-- The frame of a write of `I`. -/
theorem State.setI_only (s : State) (a : Word) : ({ index := true : Effects }).Only s (s.setI a) := by
  simp [Effects.Only]

/-- What an instruction does that writes `I` and goes on to the next instruction, the new `I` read as a number. -/
theorem State.setI_continueNext_spec (s : State) {a : Word} {n : Nat} (h : a.toNat = n) :
    ∃ t, (s.setI a).continueNext = .next t ∧
      t.i.toNat = n ∧ t.pc = s.pc + 2 ∧ ({ index := true : Effects }).Only s t :=
  ⟨_, (s.setI a).continueNext_eq, h, rfl, Effects.only_then_setPc (s.setI_only a) _⟩

/-- Settles O48: both are a write of `I` alone, one of the address and one of the glyph's address. -/
theorem indexLoads : Obligations.IndexLoads :=
  ⟨fun addr s => s.setI_continueNext_spec (addrWord_toNat addr),
    fun x s => s.setI_continueNext_spec (glyphAddress_toNat (s.getV x))⟩

/-- Settles O49: `ADD I,Vx` is a write of `I` alone, of the sum as a 16-bit word. -/
theorem indexAddWrapsWithoutFlag : Obligations.IndexAddWrapsWithoutFlag := fun x s =>
  s.setI_continueNext_spec (indexPlus_toNat s.i (s.getV x))

/-! ### Stores of consecutive bytes -/

/-- The byte `j` places into a store stands `j` places after its first address. -/
theorem State.memRead_writeBytes_add {s : State} (hwf : Memory.wf s.mem = true) {a : Nat} {bs : List Byte}
    (hin : a + bs.length ≤ Config.memSize) {j : Nat} (hj : j < bs.length) :
    (s.writeBytes a bs).memRead (a + j) = bs.getD j 0 := by
  rw [State.memRead_writeBytes hwf a bs hin, if_pos ⟨by omega, by omega⟩, Nat.add_sub_cancel_left]

/-- The frame of a store of consecutive bytes inside memory. -/
theorem State.writeBytes_only {s : State} (hwf : Memory.wf s.mem = true) {a : Nat} {bs : List Byte}
    (hin : a + bs.length ≤ Config.memSize) : (Effects.store a bs.length).Only s (s.writeBytes a bs) := by
  have hbytes : ∀ c, (Effects.store a bs.length).bytes c = false → (s.writeBytes a bs).memRead c = s.memRead c := by
    intro c hc
    have hout : ¬ (a ≤ c ∧ c < a + bs.length) := by simpa [Effects.store] using hc
    rw [State.memRead_writeBytes hwf a bs hin, if_neg hout]
  have hregs : ∀ r, (s.writeBytes a bs).getV r = s.getV r := by
    rw [(s.writeBytes_eq a bs).1]
    exact fun _ => rfl
  refine ⟨fun r _ => hregs r, hbytes, ?_⟩
  rw [(s.writeBytes_eq a bs).1]
  simp

/-- The digits of a byte by their place (R163). -/
theorem bcdDigits_getD_toNat (b : Byte) (j : Nat) :
    ((bcdDigits b).getD j 0).toNat = [b.toNat / 100, b.toNat / 10 % 10, b.toNat % 10].getD j 0 := by
  rw [← bcdDigits_toNat]
  exact (List.getD_map _ 0 BitVec.toNat).symm

/-- Settles O50: `LD B,Vx` is a store of the three digits, each read back by its place. -/
theorem decimalDigitsAreStored : Obligations.DecimalDigitsAreStored := by
  intro x s hwf hi
  have hin : s.i.toNat + 3 ≤ 4096 := by omega
  have hdigit : ∀ j, j < 3 → ((s.writeBytes s.i.toNat (bcdDigits (s.getV x))).memRead (s.i.toNat + j)).toNat =
      [(s.getV x).toNat / 100, (s.getV x).toNat / 10 % 10, (s.getV x).toNat % 10].getD j 0 := by
    intro j hj
    rw [State.memRead_writeBytes_add hwf hin hj, bcdDigits_getD_toNat]
  exact ⟨_, exec_ldBVx hin, hdigit 0 (by decide), hdigit 1 (by decide), hdigit 2 (by decide), rfl,
    Effects.only_then_setPc (State.writeBytes_only hwf hin) _⟩

/-- Settles O51: `LD [I],Vx` is a store of the list of V0 to Vx, whose entry at place q is Vq. -/
theorem registersAreStored : Obligations.RegistersAreStored := by
  intro x s hwf hi
  have hin : s.i.toNat + (x.toNat + 1) ≤ 4096 := by omega
  have hlen : (s.firstRegs x).length = x.toNat + 1 := s.firstRegs_length x
  have hstore : s.i.toNat + (s.firstRegs x).length ≤ Config.memSize := hlen ▸ hin
  refine ⟨_, exec_ldMemIVx hin, ?stored, rfl, ?frame⟩
  case stored =>
    intro q hq
    rw [State.memRead_setPc, State.memRead_writeBytes_add hwf hstore (by omega), s.firstRegs_getD x q hq]
  case frame => exact hlen ▸ Effects.only_then_setPc (State.writeBytes_only hwf hstore) _

/-! ### The block load -/

/-- What the registers hold after a block load: V0 to Vx the bytes in ascending order, the others what they held
(R165, D10). -/
theorem State.getV_setRegs_bytesAt (s : State) (a : Nat) (x q : Nibble) :
    (s.setRegs 0 (s.bytesAt a (x.toNat + 1))).getV q =
      if q.toNat ≤ x.toNat then s.memRead (a + q.toNat) else s.getV q := by
  have hx := x.isLt
  have hlen : (s.bytesAt a (x.toNat + 1)).length = x.toNat + 1 := s.bytesAt_length a _
  rw [State.getV_setRegs s 0 _ (by omega), hlen]
  by_cases hq : q.toNat ≤ x.toNat
  · rw [if_pos hq, if_pos ⟨Nat.zero_le _, by omega⟩, Nat.sub_zero, State.bytesAt_getD s a _ _ (by omega)]
  · rw [if_neg hq, if_neg (by omega)]

/-- The frame of a block load: V0 to Vx alone. -/
theorem State.setRegs_bytesAt_only (s : State) (a : Nat) (x : Nibble) :
    ({ regs := fun r => decide (r.toNat ≤ x.toNat) : Effects }).Only s
      (s.setRegs 0 (s.bytesAt a (x.toNat + 1))) := by
  refine ⟨?regs, ?_⟩
  case regs =>
    intro r hr
    rw [State.getV_setRegs_bytesAt, if_neg (of_decide_eq_false hr)]
  · rw [State.setRegs_eq]
    simp [State.memRead]

/-- Settles O52: `LD Vx,[I]` is a write of V0 to Vx, the byte at place q of the block going to Vq. -/
theorem registersAreLoaded : Obligations.RegistersAreLoaded := by
  intro x s hi
  refine ⟨_, exec_ldVxMemI (by omega), ?loaded, rfl, Effects.only_then_setPc (s.setRegs_bytesAt_only _ x) _⟩
  intro q hq
  rw [State.getV_setPc, State.getV_setRegs_bytesAt, if_pos hq]

/-- Settles O53: the load takes from I + q what the store left there. -/
theorem storeThenLoadRestoresTheRegisters : Obligations.StoreThenLoadRestoresTheRegisters := by
  intro x s t s' hwf hin hexec hmem hi
  obtain ⟨t', hexec', hstored, -⟩ := registersAreStored x s hwf hin
  obtain rfl : t = t' := by simpa [hexec] using hexec'
  obtain ⟨u, hload, hloaded, -⟩ := registersAreLoaded x s' (hi ▸ hin)
  refine ⟨u, hload, fun q hq => ?_⟩
  calc u.getV q = s'.memRead (s'.i.toNat + q.toNat) := hloaded q hq
    _ = t.memRead (s.i.toNat + q.toNat) := by rw [State.memRead, State.memRead, hmem, hi]
    _ = s.getV q := hstored q hq

/-! ### Ranges that reach past 0xFFF -/

/-- Settles O54: each of the four checks its whole range before the first access, and a failing check is the latch
alone. -/
theorem rangesPastMemoryRaise : Obligations.RangesPastMemoryRaise := by
  intro x y n s
  refine ⟨?digits, ?blocks, ?sprite⟩
  case digits =>
    intro hpast
    exact State.withinBounds_neg (by decide) (by omega) _ _
  case blocks =>
    intro hpast
    have hblock : 4096 < s.i.toNat + blockSize x := by
      rw [blockSize]
      omega
    exact ⟨State.withinBounds_neg x.toNat.succ_pos hblock _ _, State.withinBounds_neg x.toNat.succ_pos hblock _ _⟩
  case sprite =>
    intro hrows hpast
    exact State.withinBounds_neg hrows (by omega) _ _

end Sys2Proof.Machine
end

section
/-! Proofs of the statements about `DRW` (R181 to R186): the pixels it toggles, its collision flag and its frame, and that
a second draw at the same place undoes the first. -/

namespace Sys2Proof.Machine

/-! ### A drawn sprite -/

/-- Coordinates of the display are reduced, so a covered pixel also stands in the display's own range (R183). -/
theorem rowsCover_mod (vx row : Nat) (sprite : List Byte) (x y : Nat) :
    RowsCover vx row sprite (x % 64) (y % 32) ↔ RowsCover vx row sprite x y := by
  simp only [RowsCover, ColumnsCover, Nat.mod_mod]

/-- Whether the sprite at `I` covers a pixel that is set: a draw of it collides (R182). -/
def State.Collides (s : State) (vx vy n : Nat) : Prop :=
  ∃ px py, px < 64 ∧ py < 32 ∧ s.Covers vx vy n px py ∧ s.fb.pixel px py = true

/-- A collision anywhere on the unbounded coordinates is one in the display's own range. -/
theorem State.exists_rowsCover_iff_collides (s : State) (vx vy n : Nat) :
    (∃ x y, RowsCover vx vy (s.bytesAt s.i.toNat n) x y ∧ s.fb.pixel x y = true) ↔ s.Collides vx vy n := by
  constructor
  · rintro ⟨x, y, hcover, hset⟩
    have hx : x % 64 < 64 := Nat.mod_lt x (by decide)
    have hy : y % 32 < 32 := Nat.mod_lt y (by decide)
    exact ⟨x % 64, y % 32, hx, hy, (rowsCover_bytesAt s vx vy n _ _ hx hy).mp ((rowsCover_mod ..).mpr hcover),
      (s.fb.pixel_mod x y).trans hset⟩
  · rintro ⟨x, y, hx, hy, hcover, hset⟩
    exact ⟨x, y, (rowsCover_bytesAt s vx vy n x y hx hy).mpr hcover, hset⟩

/-- The sprite at `I`, at most 32 rows high: the pixels it covers toggle, the others stay, and the flag is the collision
(R181, R182). -/
theorem State.drawSprite_spec (s : State) (vx vy : Nat) {n : Nat} (hn : n ≤ 32) :
    (∀ px py, px < 64 → py < 32 → s.Covers vx vy n px py →
      (drawSprite s.fb vx vy (s.bytesAt s.i.toNat n)).1.pixel px py = !s.fb.pixel px py) ∧
    (∀ px py, px < 64 → py < 32 → ¬ s.Covers vx vy n px py →
      (drawSprite s.fb vx vy (s.bytesAt s.i.toNat n)).1.pixel px py = s.fb.pixel px py) ∧
    ((drawSprite s.fb vx vy (s.bytesAt s.i.toNat n)).2 = true ↔ s.Collides vx vy n) := by
  have hlen : (s.bytesAt s.i.toNat n).length ≤ 32 := by rwa [State.bytesAt_length]
  obtain ⟨htoggled, hkept, hflag⟩ := drawRows_spec vx vy _ hlen (s.fb, false)
  refine ⟨fun px py hx hy hc => ?_, fun px py hx hy hc => ?_, ?_⟩
  · exact htoggled px py ((rowsCover_bytesAt s vx vy n px py hx hy).mpr hc)
  · exact hkept px py (mt (rowsCover_bytesAt s vx vy n px py hx hy).mp hc)
  · rw [drawSprite, hflag, ← s.exists_rowsCover_iff_collides]
    simp only [Bool.false_eq_true, false_or]

/-! ### `DRW` -/

/-- The frame of a write of the display and of the flag register. -/
theorem State.setFb_setFlag_only (s : State) (fb : FrameBuffer) (f : Bool) :
    ({ regs := fun r => r == 0xF, display := true : Effects }).Only s ((s.setFb fb).setFlag f) := by
  refine ⟨fun r hr => (s.setFb fb).getV_setV_ne (beq_eq_false_iff_ne.mp hr) _, ?_⟩
  simp

theorem State.getV_flagReg_setFlag (s : State) (f : Bool) : (s.setFlag f).getV 0xF = flagByte f :=
  s.getV_setV_self 0xF _

/-- Settles O57: the state that `DRW` leaves is named by `exec_drwVxVyN`, its display and flag by
`State.drawSprite_spec`. -/
theorem drawXorsTheSprite : Obligations.DrawXorsTheSprite := by
  intro x y n s hrange
  have hrows : n.toNat ≤ 32 := by have := n.isLt; omega
  obtain ⟨htoggled, hkept, hflag⟩ := s.drawSprite_spec (s.getV x).toNat (s.getV y).toNat hrows
  refine ⟨_, exec_drwVxVyN (by omega), htoggled, hkept, ?collision, ?noCollision, rfl,
    Effects.only_then_setPc (s.setFb_setFlag_only _ _) _⟩
  case collision =>
    intro hcollides
    rw [State.getV_setPc, State.getV_flagReg_setFlag, hflag.mpr hcollides]
    rfl
  case noCollision =>
    intro hfree
    rw [State.getV_setPc, State.getV_flagReg_setFlag, Bool.eq_false_iff.mpr (mt hflag.mp hfree)]
    rfl

/-! ### Two draws at one place -/

/-- What a sprite covers depends on `I` and memory alone. -/
theorem State.covers_congr {s t : State} (hi : t.i = s.i) (hmem : ∀ a, t.memRead a = s.memRead a)
    (vx vy n px py : Nat) : t.Covers vx vy n px py ↔ s.Covers vx vy n px py := by
  simp only [State.Covers, hi, hmem]

/-- Settles O58: the first draw leaves the coordinates, `I` and memory, so the second covers the same pixels, and a
covered pixel toggles twice. -/
theorem drawTwiceRestoresTheDisplay : Obligations.DrawTwiceRestoresTheDisplay := by
  intro x y n s hx hy hrange
  obtain ⟨t, hfirst, htoggled, hkept, -, -, -, hregs, hmem, hi, -⟩ := drawXorsTheSprite x y n s hrange
  obtain ⟨u, hsecond, htoggled', hkept', -⟩ := drawXorsTheSprite x y n t (hi rfl ▸ hrange)
  rw [hregs x (beq_eq_false_iff_ne.mpr hx), hregs y (beq_eq_false_iff_ne.mpr hy)] at htoggled' hkept'
  have hcovers := State.covers_congr (hi rfl) (fun a => hmem a rfl) (s.getV x).toNat (s.getV y).toNat n.toNat
  refine ⟨t, u, hfirst, hsecond, FrameBuffer.ext_pixel fun px py hpx hpy => ?_⟩
  by_cases hc : s.Covers (s.getV x).toNat (s.getV y).toNat n.toNat px py
  · rw [htoggled' px py hpx hpy ((hcovers px py).mpr hc), htoggled px py hpx hpy hc, Bool.not_not]
  · rw [hkept' px py hpx hpy (mt (hcovers px py).mp hc), hkept px py hpx hpy hc]

end Sys2Proof.Machine
end

section
/-! Proofs of the statements about the keypad and the timers (R200 to R209): the two key skips, the wait for a key, and
the three copies of a timer. -/

namespace Sys2Proof.Machine

/-! ### The keypad -/

/-- Settles O38: both are skips, on the level of the key that the low nibble selects and on its opposite. -/
theorem skipsTestTheKey : Obligations.SkipsTestTheKey := by
  intro x s
  rw [← keyOf_eq]
  exact ⟨s.skipIf_spec Iff.rfl, s.skipIf_spec (iff_of_eq (Bool.not_eq_true' _))⟩

/-- Settles O59: without a key the wait is a write of `pc` with its own value, and with one it is a write of Vx alone,
of the lowest key's index. -/
theorem waitTakesTheLowestKey : Obligations.WaitTakesTheLowestKey := by
  refine ⟨fun x s hnone => exec_ldVxK_of_none (State.lowestKey_none hnone), fun x k s hkey hlow => ?_⟩
  obtain ⟨t, hnext, hvx, hpc, hframe⟩ := s.setV_continueNext_spec x (k.setWidth 8)
  refine ⟨t, (exec_ldVxK (State.lowestKey_some hkey hlow)).trans hnext, ?_, hpc, hframe⟩
  rw [hvx, BitVec.toNat_setWidth_of_le (by decide)]

/-! ### The timers -/

/-- The frame of a write of `DT`. -/
theorem State.setDt_only (s : State) (b : Byte) : ({ delay := true : Effects }).Only s (s.setDt b) := by
  simp [Effects.Only]

/-- The frame of a write of `ST`. -/
theorem State.setSt_only (s : State) (b : Byte) : ({ sound := true : Effects }).Only s (s.setSt b) := by
  simp [Effects.Only]

/-- Settles O60: each is a write of the one register or timer it copies into. -/
theorem timersAreReadAndSet : Obligations.TimersAreReadAndSet := fun x s =>
  ⟨s.setV_continueNext_spec x s.dt,
    ⟨_, (s.setDt (s.getV x)).continueNext_eq, rfl, rfl, Effects.only_then_setPc (s.setDt_only _) _⟩,
    ⟨_, (s.setSt (s.getV x)).continueNext_eq, rfl, rfl, Effects.only_then_setPc (s.setSt_only _) _⟩⟩

end Sys2Proof.Machine
end

section
/-! Proofs of the statements about the encoding as a whole (R83 to R86): the decoder and the encoder are inverse to each
other, the opcodes that decode to nothing, and the words of the table. -/

namespace Sys2Proof.Machine

open Sys2Proof.Laws

/-! ### The dispatch key -/

/-- The bits that the dispatch key of a group keeps (R83). -/
def keyMask (group : Word) : Word :=
  if group = 0x0000#16 ∨ group = 0xE000#16 ∨ group = 0xF000#16 then 0xF0FF#16
  else if group = 0x8000#16 then 0xF00F#16
  else 0xF000#16

theorem dispatchKey_eq (op : Word) : dispatchKey op = op &&& keyMask (opGroup op) := by
  unfold dispatchKey keyMask
  split_ifs <;> rfl

/-- Every dispatch key keeps the group. -/
theorem opGroup_keyMask (group : Word) : opGroup (keyMask group) = 0xF000#16 := by
  unfold keyMask
  split_ifs <;> rfl

theorem opGroup_and_keyMask (op group : Word) : opGroup (op &&& keyMask group) = opGroup op := by
  rw [opGroup, BitVec.and_assoc, ← opGroup, opGroup_keyMask, opGroup]

/-- An opcode has the dispatch key `key` exactly when it has these bits under the mask of the key's own group. -/
theorem dispatchKey_eq_iff {op key : Word} : dispatchKey op = key ↔ op &&& keyMask (opGroup key) = key := by
  rw [dispatchKey_eq]
  constructor
  · rintro rfl
    rw [opGroup_and_keyMask]
  · intro h
    have hgroup : opGroup op = opGroup key := by rw [← h, opGroup_and_keyMask]
    rw [hgroup, h]

/-! ### Decoding an encoding -/

/-- Every instruction's opcode is in the instruction's own row. -/
theorem encodingFitsRow : ∀ i : Instr, EncodingFitsRow.Statement i
  | .cls ign => EncodingFitsRow.cls ign
  | .ret ign => EncodingFitsRow.ret ign
  | .jmp addr => EncodingFitsRow.jmp addr
  | .call addr => EncodingFitsRow.call addr
  | .seVxKk x kk => EncodingFitsRow.seVxKk x kk
  | .sneVxKk x kk => EncodingFitsRow.sneVxKk x kk
  | .seVxVy x y ign => EncodingFitsRow.seVxVy x y ign
  | .ldVxKk x kk => EncodingFitsRow.ldVxKk x kk
  | .addVxKk x kk => EncodingFitsRow.addVxKk x kk
  | .ldVxVy x y => EncodingFitsRow.ldVxVy x y
  | .orVxVy x y => EncodingFitsRow.orVxVy x y
  | .andVxVy x y => EncodingFitsRow.andVxVy x y
  | .xorVxVy x y => EncodingFitsRow.xorVxVy x y
  | .addVxVy x y => EncodingFitsRow.addVxVy x y
  | .subVxVy x y => EncodingFitsRow.subVxVy x y
  | .shrVx x ign => EncodingFitsRow.shrVx x ign
  | .subnVxVy x y => EncodingFitsRow.subnVxVy x y
  | .shlVx x ign => EncodingFitsRow.shlVx x ign
  | .sneVxVy x y ign => EncodingFitsRow.sneVxVy x y ign
  | .ldIAddr addr => EncodingFitsRow.ldIAddr addr
  | .jpV0Addr addr => EncodingFitsRow.jpV0Addr addr
  | .rndVxKk x kk => EncodingFitsRow.rndVxKk x kk
  | .drwVxVyN x y n => EncodingFitsRow.drwVxVyN x y n
  | .skpVx x => EncodingFitsRow.skpVx x
  | .sknpVx x => EncodingFitsRow.sknpVx x
  | .ldVxDt x => EncodingFitsRow.ldVxDt x
  | .ldVxK x => EncodingFitsRow.ldVxK x
  | .ldDtVx x => EncodingFitsRow.ldDtVx x
  | .ldStVx x => EncodingFitsRow.ldStVx x
  | .addIVx x => EncodingFitsRow.addIVx x
  | .ldFVx x => EncodingFitsRow.ldFVx x
  | .ldBVx x => EncodingFitsRow.ldBVx x
  | .ldMemIVx x => EncodingFitsRow.ldMemIVx x
  | .ldVxMemI x => EncodingFitsRow.ldVxMemI x

/-- The mask of each row is the one of its group (R83, R84). -/
theorem keyMask_of_mem_opcodeRows : ∀ row ∈ opcodeRows, keyMask (opGroup row.2) = row.1 := by
  simp [opcodeRows, keyMask, opGroup]

/-- The dispatch key of an instruction's opcode is the fixed part of its row (R83). -/
theorem dispatchKey_encode (i : Instr) :
    opcodeRows[rowIndex i]?.map Prod.snd = some (dispatchKey (encode i)) := by
  obtain ⟨mask, fixed, hrow, hfits⟩ := encodingFitsRow i
  have hmask : keyMask (opGroup fixed) = mask := keyMask_of_mem_opcodeRows _ (List.mem_of_getElem? hrow)
  rw [hrow, dispatchKey_eq_iff.mpr (hmask ▸ hfits)]
  rfl

/-- The key selects the instruction's own row, and the field functions of the row find its operands. -/
theorem decode_encode (i : Instr) : decode (encode i) = .ok i := by
  have hkey := dispatchKey_encode i
  cases i <;>
  · simp only [decode, ← Option.some.inj hkey]
    simp only [encode, opX_or, opY_or, opN_or, opAddr_or, opKk_or, opX_atX, opY_atY, opN_atN, opAddr_atAddr, opKk_atKk,
      opX_atY, opX_atN, opX_atKk, opY_atX, opY_atN, opN_atX, opN_atY, opKk_atX]
    simp [opX, opY, opN, opAddr, opKk]

/-- Settles O2: the two bytes are put together to the opcode again, and `decode_encode` decodes it. -/
theorem decodeOfEncodeIsTheInstruction : Obligations.DecodeOfEncodeIsTheInstruction := by
  intro i rest
  have hdecode : decode (opcodeOfBytes ((encode i).extractLsb' 8 8) ((encode i).extractLsb' 0 8)) = .ok i := by
    rw [opcodeOfBytes_bytesOfOpcode, decode_encode]
  simp only [bytesOfOpcode, List.cons_append, List.nil_append, decodeBytes, hdecode]

/-! ### Encoding what was decoded -/

/-! A field put back in its place is the opcode under the field's mask. -/

theorem atX_opX (op : Word) : atX (opX op) = op &&& 0x0F00#16 := by
  simp only [opX, atX]
  ext i h
  interval_cases i <;> simp

theorem atY_opY (op : Word) : atY (opY op) = op &&& 0x00F0#16 := by
  simp only [opY, atY]
  ext i h
  interval_cases i <;> simp

theorem atN_opN (op : Word) : atN (opN op) = op &&& 0x000F#16 := by
  simp only [opN, atN]
  ext i h
  interval_cases i <;> simp

theorem atAddr_opAddr (op : Word) : atAddr (opAddr op) = op &&& 0x0FFF#16 := by
  simp only [opAddr, atAddr]
  ext i h
  interval_cases i <;> simp

theorem atKk_opKk (op : Word) : atKk (opKk op) = op &&& 0x00FF#16 := by
  simp only [opKk, atKk]
  ext i h
  interval_cases i <;> simp

/-- An opcode is its dispatch key and the bits that the key's mask leaves out. -/
theorem or_and_eq_of_dispatchKey {op key rest : Word} (hkey : dispatchKey op = key)
    (hrest : keyMask (opGroup key) ||| rest = BitVec.allOnes 16) : key ||| op &&& rest = op := by
  calc key ||| op &&& rest = op &&& keyMask (opGroup key) ||| op &&& rest := by rw [dispatchKey_eq_iff.mp hkey]
    _ = op := by rw [← BitVec.and_or_distrib_left, hrest, BitVec.and_allOnes]

/-- An instruction that the result answers is one whose opcode is `op`. -/
def EncodesBack (op : Word) (r : Except DecodeError Instr) : Prop := ∀ i, r = .ok i → encode i = op

theorem encodesBack_error (op : Word) (e : DecodeError) : EncodesBack op (.error e) := by
  rintro i ⟨⟩

/-- One row of the decoder: the instruction of the row, or what the later rows answer. -/
theorem encodesBack_ite {op key : Word} {j : Instr} {later : Except DecodeError Instr} (hlater : EncodesBack op later)
    (hrow : dispatchKey op = key → encode j = op) :
    EncodesBack op (if dispatchKey op = key then .ok j else later) := by
  split_ifs with hkey
  · rintro i ⟨⟩
    exact hrow hkey
  · exact hlater

/-- In each of the 34 rows the fixed part and the fields together are the opcode: no bit is left out. -/
theorem encodesBack_decode (op : Word) : EncodesBack op (decode op) := by
  unfold decode
  iterate 34 refine encodesBack_ite ?_ (fun hkey => ?_)
  · exact encodesBack_error op _
  all_goals simp only [encode, atX_opX, atY_opY, atN_opN, atAddr_opAddr, atKk_opKk, BitVec.or_assoc,
    ← BitVec.and_or_distrib_left]
  all_goals exact or_and_eq_of_dispatchKey hkey (by decide)

/-- Settles O3, row by row of the decoder. -/
theorem encodeOfDecodeIsTheOpcode : Obligations.EncodeOfDecodeIsTheOpcode := encodesBack_decode

/-! ### Unknown opcodes -/

/-- A row of the decoder answers no error: the opcode is unknown when it passes the row and the later ones too. -/
theorem ite_ok_eq_error_iff {c : Prop} [Decidable c] {j : Instr} {later : Except DecodeError Instr} {e : DecodeError} :
    (if c then .ok j else later) = .error e ↔ ¬ c ∧ later = .error e := by
  by_cases h : c <;> simp [h]

/-- An opcode is unknown exactly when its dispatch key is the fixed part of no row (R86). -/
theorem decode_eq_unknownOpcode_iff (op : Word) :
    decode op = .error (.unknownOpcode op) ↔ dispatchKey op ∉ opcodeRows.map Prod.snd := by
  simp only [decode, ite_ok_eq_error_iff]
  simp [opcodeRows]

/-- The group and the lowest `k` bits of an opcode, as a number. -/
theorem and_groupAndLow_toNat (op : Word) {mask low : Word} {k : Nat} (hmask : mask = 0xF000#16 ||| low)
    (hlow : low.toNat = 2 ^ k - 1) (hk : k ≤ 12) :
    (op &&& mask).toNat = op.toNat / 4096 * 4096 + op.toNat % 2 ^ k := by
  have hlt : op.toNat % 2 ^ k < 2 ^ 12 :=
    (Nat.mod_lt _ (Nat.two_pow_pos k)).trans_le (Nat.pow_le_pow_right (by decide) hk)
  rw [hmask, BitVec.and_or_distrib_left, BitVec.toNat_or, ← opGroup, opGroup_toNat, BitVec.toNat_and, hlow,
    Nat.and_two_pow_sub_one_eq_mod, Nat.mul_comm, ← Nat.two_pow_add_eq_or_of_lt hlt]

theorem opGroup_eq_iff (op : Word) {group : Word} {g : Nat} (h : group.toNat = g * 4096) :
    opGroup op = group ↔ op.toNat / 4096 = g := by
  rw [← BitVec.toNat_inj, opGroup_toNat, h]
  omega

/-- The dispatch key as a number: the group and, in the groups that have several rows, the bits that tell them apart
(R83). -/
theorem dispatchKey_toNat (op : Word) :
    (dispatchKey op).toNat = op.toNat / 4096 * 4096 +
      if op.toNat / 4096 = 0x0 ∨ op.toNat / 4096 = 0xE ∨ op.toNat / 4096 = 0xF then op.toNat % 256
      else if op.toNat / 4096 = 0x8 then op.toNat % 16
      else 0 := by
  simp only [dispatchKey, opGroup_eq_iff op (group := 0x0000#16) (g := 0) rfl,
    opGroup_eq_iff op (group := 0xE000#16) (g := 0xE) rfl, opGroup_eq_iff op (group := 0xF000#16) (g := 0xF) rfl,
    opGroup_eq_iff op (group := 0x8000#16) (g := 0x8) rfl]
  split_ifs
  · exact and_groupAndLow_toNat op (low := 0x00FF#16) (k := 8) rfl rfl (by decide)
  · exact and_groupAndLow_toNat op (low := 0x000F#16) (k := 4) rfl rfl (by decide)
  · rw [Nat.add_zero, opGroup_toNat]

/-- Settles O4, group by group: in each the key tells one field of the opcode, and the rows of the group are the values
of the field that are known. -/
theorem unknownOpcodesAreThoseListed : Obligations.UnknownOpcodesAreThoseListed := by
  intro op
  have hgroup : op.toNat / 4096 < 16 := by have := op.isLt; omega
  have hkk : op.toNat % 256 < 256 := Nat.mod_lt _ (by decide)
  have hn : op.toNat % 16 < 16 := Nat.mod_lt _ (by decide)
  rw [decode_eq_unknownOpcode_iff]
  simp only [opcodeRows, List.map_append, List.map_cons, List.map_nil, List.mem_append, List.mem_cons,
    ← BitVec.toNat_inj, dispatchKey_toNat]
  generalize op.toNat / 4096 = group at *
  generalize op.toNat % 256 = kk at *
  generalize op.toNat % 16 = n at *
  interval_cases group <;> simp <;> omega

/-- Settles O1: the twelve words and 0x0000, decoded. -/
theorem encodingTableWordsDecode : Obligations.EncodingTableWordsDecode := by
  unfold Obligations.EncodingTableWordsDecode
  decide

end Sys2Proof.Machine
end

section
/-! Proofs of the statements about logic, arithmetic, shifts and the random byte (R136 to R147). -/

namespace Sys2Proof.Machine

/-! ### Logic -/

/-- What an instruction does that writes one register and goes on to the next instruction, the byte read bit by bit. -/
theorem State.setV_continueNext_bits (s : State) (x : Nibble) {b : Byte} {bit : Nat → Bool}
    (h : ∀ j, b.getLsbD j = bit j) :
    ∃ t, (s.setV x b).continueNext = .next t ∧
      (∀ j, (t.getV x).getLsbD j = bit j) ∧ t.pc = s.pc + 2 ∧ (Effects.reg x).Only s t := by
  obtain ⟨t, hexec, hbyte, hpc, hframe⟩ := s.setV_continueNext_spec x b
  exact ⟨t, hexec, hbyte ▸ h, hpc, hframe⟩

/-- Settles O41: each is a write of Vx alone, of a byte whose bits are the operation's. -/
theorem logicIsBitwiseWithoutFlag : Obligations.LogicIsBitwiseWithoutFlag := fun x _ s =>
  ⟨s.setV_continueNext_bits x fun _ => BitVec.getLsbD_or, s.setV_continueNext_bits x fun _ => BitVec.getLsbD_and,
    s.setV_continueNext_bits x fun _ => BitVec.getLsbD_xor.trans (Bool.bne_eq_xor ▸ rfl)⟩

/-! ### Flag instructions -/

/-- The frame of a flag instruction: the result's register and VF (R22). -/
theorem State.setFlagThen_only (s : State) (f : Bool) (x : Nibble) (b : Byte) :
    (Effects.regAndFlag x).Only s (s.setFlagThen f x b) := by
  refine ⟨fun r hr => ?_, ?_⟩
  · obtain ⟨hx, hflag⟩ : r ≠ x ∧ r ≠ Config.flagReg := by simpa [Effects.regAndFlag] using hr
    rw [State.getV_setFlagThen, if_neg hx, if_neg hflag]
  · simp [State.setFlagThen]

/-- What a flag instruction does that goes on to the next instruction: the result in its register, and the flag in VF
unless that is the register of the result (R23, R134, D2). -/
theorem State.setFlagThen_continueNext_spec (s : State) (f : Bool) (x : Nibble) (b : Byte) :
    ∃ t, (s.setFlagThen f x b).continueNext = .next t ∧
      t.getV x = b ∧ (x ≠ 0xF → t.getV 0xF = flagByte f) ∧ t.pc = s.pc + 2 ∧ (Effects.regAndFlag x).Only s t := by
  refine ⟨_, State.continueNext_eq _, ?result, ?flag, rfl, Effects.only_then_setPc (s.setFlagThen_only f x b) _⟩
  case result => rw [State.getV_setPc, State.getV_setFlagThen, if_pos rfl]
  case flag =>
    intro hx
    exact (s.getV_setFlagThen f x b 0xF).trans ((if_neg hx.symm).trans (if_pos rfl))

/-- The same with the result as a number and the flag's test as a proposition. -/
theorem State.setFlagThen_continueNext_toNat (s : State) {f : Bool} {P : Prop} [Decidable P] (hf : f = true ↔ P)
    (x : Nibble) {b : Byte} {n : Nat} (hb : b.toNat = n) :
    ∃ t, (s.setFlagThen f x b).continueNext = .next t ∧
      (t.getV x).toNat = n ∧ (x ≠ 0xF → (t.getV 0xF).toNat = if P then 1 else 0) ∧
      t.pc = s.pc + 2 ∧ (Effects.regAndFlag x).Only s t := by
  obtain ⟨t, hexec, hresult, hflag, hpc, hframe⟩ := s.setFlagThen_continueNext_spec f x b
  refine ⟨t, hexec, hresult ▸ hb, fun hx => ?_, hpc, hframe⟩
  rw [hflag hx, flagByte_toNat, if_congr hf rfl rfl]

/-- Settles O42: the carry, then the sum reduced to 8 bits. -/
theorem addSetsTheCarry : Obligations.AddSetsTheCarry := fun x _ s =>
  s.setFlagThen_continueNext_toNat decide_eq_true_iff x (BitVec.toNat_add _ _)

/-- The difference of bytes as a number: 256 is added before the subtraction. -/
theorem sub_toNat (a b : Byte) : (a - b).toNat = (a.toNat + 256 - b.toNat) % 256 := by
  have hb := b.isLt
  rw [BitVec.toNat_sub]
  congr 1
  omega

/-- Settles O43: the comparison of Vx with Vy, then the difference. -/
theorem subFlagsStrictlyGreater : Obligations.SubFlagsStrictlyGreater := fun x _ s =>
  s.setFlagThen_continueNext_toNat decide_eq_true_iff x (sub_toNat _ _)

/-- Settles O44: the comparison of Vy with Vx, then the difference. -/
theorem subnFlagsStrictlyGreater : Obligations.SubnFlagsStrictlyGreater := fun x _ s =>
  s.setFlagThen_continueNext_toNat decide_eq_true_iff x (sub_toNat _ _)

/-! ### Shifts -/

/-- What a shift does: the flag is the old bit 0, and what is shifted is the register as it is read again after that
write, the old byte or, when it is VF, the flag (R142, R143, D2). -/
theorem State.shift_continueNext_spec (s : State) (x : Nibble) (shift : Byte → Byte) :
    ∃ t, (s.setFlagThen (bitZeroFlag (s.getV x)) x
        (shift ((s.setFlag (bitZeroFlag (s.getV x))).getV x))).continueNext = .next t ∧
      (x ≠ 0xF → t.getV x = shift (s.getV x) ∧ (t.getV 0xF).toNat = (s.getV x).toNat % 2) ∧
      (x = 0xF → t.getV x = shift (flagByte (bitZeroFlag (s.getV x)))) ∧
      t.pc = s.pc + 2 ∧ (Effects.regAndFlag x).Only s t := by
  obtain ⟨t, hexec, hresult, hflag, hpc, hframe⟩ := s.setFlagThen_continueNext_spec (bitZeroFlag (s.getV x)) x
    (shift ((s.setFlag (bitZeroFlag (s.getV x))).getV x))
  rw [State.getV_setFlag] at hresult
  refine ⟨t, hexec, fun hx => ⟨?other, ?flag⟩, fun hx => ?self, hpc, hframe⟩
  case other => exact hresult.trans (congrArg shift (if_neg hx))
  case flag => rw [hflag hx, bitZeroFlag_toNat]
  case self => exact hresult.trans (congrArg shift (if_pos hx))

/-- Settles O45: a shift by halving, and half of a flag is 0. -/
theorem shiftRightFlagsBitZero : Obligations.ShiftRightFlagsBitZero := by
  intro x ign s
  obtain ⟨t, hexec, hother, hself, hpc, hframe⟩ := s.shift_continueNext_spec x (· >>> 1)
  refine ⟨t, hexec, fun hx => ⟨?half, (hother hx).2⟩, fun hx => ?flagHalf, hpc, hframe⟩
  case half => rw [(hother hx).1, BitVec.toNat_ushiftRight, Nat.shiftRight_one]
  case flagHalf =>
    rw [hself hx]
    cases bitZeroFlag (s.getV x) <;> rfl

/-- Settles O46: a shift by doubling, and twice a flag is below 256. -/
theorem shiftLeftFlagsBitZero : Obligations.ShiftLeftFlagsBitZero := by
  intro x ign s
  obtain ⟨t, hexec, hother, hself, hpc, hframe⟩ := s.shift_continueNext_spec x (· <<< 1)
  refine ⟨t, hexec, fun hx => ⟨?double, (hother hx).2⟩, fun hx => ?flagDouble, hpc, hframe⟩
  case double => rw [(hother hx).1, BitVec.toNat_shiftLeft, Nat.shiftLeft_eq]
  case flagDouble =>
    rw [hself hx, BitVec.toNat_shiftLeft, Nat.shiftLeft_eq, bitZeroFlag_toNat]
    omega

/-! ### The random byte -/

/-- The frame of a random draw into a register. -/
theorem State.draw_setV_only (s : State) (x : Nibble) (b : Byte) :
    ({ regs := fun r => r == x, draws := true : Effects }).Only s (s.draw.2.setV x b) := by
  refine ⟨fun r hr => s.draw.2.getV_setV_ne (beq_eq_false_iff_ne.mp hr) b, ?_⟩
  simp

/-- Settles O47: the draw's byte is free, and a bit that the mask leaves out is 0 whatever it is. -/
theorem randomByteStaysUnderTheMask : Obligations.RandomByteStaysUnderTheMask := by
  intro x kk s
  have hbyte : (s.draw.2.setV x (Config.draw8 s.draws &&& kk)).getV x = Config.draw8 s.draws &&& kk :=
    State.getV_setV_self _ x _
  refine ⟨_, State.continueNext_eq _, hbyte, fun j hj => ?_, rfl, rfl, Effects.only_then_setPc (s.draw_setV_only x _) _⟩
  rw [State.getV_setPc, State.draw_byte, hbyte, BitVec.getLsbD_and, hj, Bool.and_false]

end Sys2Proof.Machine
end

section
/-! What an instruction can do, said once: it completes and changes the parts of the state that `effectsOf` names, or
it raises for one of the listed reasons and latches the error. The whole-machine rules of 10_state.md, 20_memory.md and
60_exceptions.md follow from this. -/

namespace Sys2Proof.Machine

/-! ### What each instruction may change, and when it raises -/

/-- The parts of the state that an instruction may change when it completes, `pc` aside (the effect columns of
40_control_flow.md to 44_keypad_and_timers.md). -/
def effectsOf : Instr → Effects
  | .jmp _ | .jpV0Addr _ | .seVxKk _ _ | .sneVxKk _ _ | .seVxVy _ _ _ | .sneVxVy _ _ _ | .skpVx _ | .sknpVx _ =>
    Effects.none
  | .call _ | .ret _ => { stack := true }
  | .ldVxKk x _ | .addVxKk x _ | .ldVxVy x _ | .orVxVy x _ | .andVxVy x _ | .xorVxVy x _ | .ldVxDt x | .ldVxK x =>
    Effects.reg x
  | .addVxVy x _ | .subVxVy x _ | .subnVxVy x _ | .shrVx x _ | .shlVx x _ => Effects.regAndFlag x
  | .rndVxKk x _ => { regs := fun r => r == x, draws := true }
  | .ldIAddr _ | .addIVx _ | .ldFVx _ => { index := true }
  | .ldDtVx _ => { delay := true }
  | .ldStVx _ => { sound := true }
  | .ldBVx _ | .ldMemIVx _ => { bytes := fun _ => true }
  | .ldVxMemI x => { regs := fun r => decide (r.toNat ≤ x.toNat) }
  | .cls _ => { display := true }
  | .drwVxVyN _ _ _ => { regs := fun r => r == 0xF, display := true }

/-- The complete list of who raises which error and when (60_exceptions.md R223). -/
def Raises (i : Instr) (s : State) (f : Fault) : Prop :=
  (∃ ign, i = .ret ign ∧ s.stack = [] ∧ f = .executeError (encode i) .stackUnderflow) ∨
  (∃ addr, i = .call addr ∧ 16 ≤ s.stack.length ∧ f = .executeError (encode i) .stackOverflow) ∨
  (f = .executeError (encode i) .memoryOutOfBounds ∧
    ((∃ x y n, i = .drwVxVyN x y n ∧ 0 < n.toNat ∧ 0xFFF < s.i.toNat + n.toNat - 1) ∨
     (∃ x, i = .ldBVx x ∧ 0xFFF < s.i.toNat + 2) ∨
     (∃ x, i = .ldMemIVx x ∧ 0xFFF < s.i.toNat + x.toNat) ∨
     (∃ x, i = .ldVxMemI x ∧ 0xFFF < s.i.toNat + x.toNat)))

/-! ### Completing with given effects -/

/-- The result is a next state in which at most the effects and `pc` have changed. -/
def CompletesWith (e : Effects) (s : State) (r : Result) : Prop := ∃ t, r = .next t ∧ e.Only s t

theorem completesWith_continueAt {e : Effects} {s t : State} (h : e.Only s t) (a : Word) :
    CompletesWith e s (t.continueAt a) := ⟨_, t.continueAt_eq a, Effects.only_then_setPc h a⟩

theorem completesWith_continueNext {e : Effects} {s t : State} (h : e.Only s t) : CompletesWith e s t.continueNext :=
  completesWith_continueAt h _

theorem Effects.only_refl (e : Effects) (s : State) : e.Only s s := e.only_setPc s s.pc

theorem completesWith_skipIf (s : State) (taken : Bool) : CompletesWith Effects.none s (s.skipIf taken) :=
  ⟨_, s.skipIf_eq taken, Effects.only_setPc _ s _⟩

/-- The frame of a store of bytes anywhere, canonical memory or not. -/
theorem State.writeBytes_only_bytes (s : State) (a : Nat) (bs : List Byte) :
    ({ bytes := fun _ => true : Effects }).Only s (s.writeBytes a bs) := by
  rw [(s.writeBytes_eq a bs).1]
  simp [Effects.Only, State.getV]

/-! ### What an instruction can do -/

/-- The instruction completes with its own effects, or it raises and latches the error. -/
def Behaves (i : Instr) (s : State) : Prop :=
  CompletesWith (effectsOf i) s (exec i s) ∨ ∃ f, Raises i s f ∧ exec i s = .next (s.latch f)

theorem behaves_ret (ign : Nibble) (s : State) : Behaves (.ret ign) s := by
  rcases s.pop_cases with ⟨hempty, -⟩ | ⟨below, a, hstack, -⟩
  · exact .inr ⟨_, .inl ⟨ign, rfl, hempty, rfl⟩, exec_ret_of_empty hempty⟩
  · exact .inl ⟨_, exec_ret hstack, Effects.only_then_setPc (Effects.only_stack s below) _⟩

theorem behaves_call (addr : Addr12) (s : State) : Behaves (.call addr) s := by
  rcases Nat.lt_or_ge s.stack.length 16 with hroom | hfull
  · exact .inl ⟨_, exec_call hroom, Effects.only_then_setPc (Effects.only_stack s _) _⟩
  · exact .inr ⟨_, .inr (.inl ⟨addr, rfl, hfull, rfl⟩), exec_call_of_full hfull⟩

theorem completesWith_ldVxK (x : Nibble) (s : State) : CompletesWith (Effects.reg x) s (exec (.ldVxK x) s) := by
  cases hkey : s.lowestKey with
  | none => exact ⟨_, exec_ldVxK_of_none hkey, Effects.only_setPc _ s _⟩
  | some k => exact ⟨_, exec_ldVxK hkey, Effects.only_then_setPc (s.setV_only x _) _⟩

/-- What an instruction with a bounds check does: its own effects inside memory, or the error. -/
theorem behaves_of_withinBounds {i : Instr} {s : State} {count : Nat} {go : Result}
    (hexec : exec i s = s.withinBounds count (encode i) go)
    (hgo : CompletesWith (effectsOf i) s go)
    (hraise : 0 < count → 4096 < s.i.toNat + count → Raises i s (.executeError (encode i) .memoryOutOfBounds)) :
    Behaves i s := by
  rcases s.withinBounds_cases count (encode i) go with ⟨-, heq⟩ | ⟨hcount, hpast, heq⟩
  · exact .inl (hexec.trans heq ▸ hgo)
  · exact .inr ⟨_, hraise hcount hpast, hexec.trans heq⟩

theorem behaves_drwVxVyN (x y n : Nibble) (s : State) : Behaves (.drwVxVyN x y n) s :=
  behaves_of_withinBounds rfl (completesWith_continueNext (s.setFb_setFlag_only _ _))
    fun hrows hpast => .inr (.inr ⟨rfl, .inl ⟨x, y, n, rfl, hrows, by omega⟩⟩)

theorem behaves_ldBVx (x : Nibble) (s : State) : Behaves (.ldBVx x) s :=
  behaves_of_withinBounds rfl (completesWith_continueNext (s.writeBytes_only_bytes _ _))
    fun _ hpast => .inr (.inr ⟨rfl, .inr (.inl ⟨x, rfl, by omega⟩)⟩)

theorem behaves_ldMemIVx (x : Nibble) (s : State) : Behaves (.ldMemIVx x) s :=
  behaves_of_withinBounds (count := x.toNat + 1) rfl (completesWith_continueNext (s.writeBytes_only_bytes _ _))
    fun _ hpast => .inr (.inr ⟨rfl, .inr (.inr (.inl ⟨x, rfl, by omega⟩))⟩)

theorem behaves_ldVxMemI (x : Nibble) (s : State) : Behaves (.ldVxMemI x) s :=
  behaves_of_withinBounds (count := x.toNat + 1) rfl (completesWith_continueNext (s.setRegs_bytesAt_only _ x))
    fun _ hpast => .inr (.inr ⟨rfl, .inr (.inr (.inr ⟨x, rfl, by omega⟩))⟩)

/-- All that an instruction can do, in every state. -/
theorem exec_behaves (i : Instr) (s : State) : Behaves i s := by
  cases i with
  | ret ign => exact behaves_ret ign s
  | call addr => exact behaves_call addr s
  | drwVxVyN x y n => exact behaves_drwVxVyN x y n s
  | ldBVx x => exact behaves_ldBVx x s
  | ldMemIVx x => exact behaves_ldMemIVx x s
  | ldVxMemI x => exact behaves_ldVxMemI x s
  | jmp | jpV0Addr => exact .inl (completesWith_continueAt (Effects.only_refl _ s) _)
  | seVxKk | sneVxKk | seVxVy | sneVxVy | skpVx | sknpVx => exact .inl (completesWith_skipIf s _)
  | ldVxKk | addVxKk | ldVxVy | orVxVy | andVxVy | xorVxVy | ldVxDt =>
    exact .inl (completesWith_continueNext (s.setV_only _ _))
  | addVxVy | subVxVy | subnVxVy | shrVx | shlVx =>
    exact .inl (completesWith_continueNext (s.setFlagThen_only _ _ _))
  | rndVxKk => exact .inl (completesWith_continueNext (s.draw_setV_only _ _))
  | ldVxK x => exact .inl (completesWith_ldVxK x s)
  | ldIAddr | addIVx | ldFVx => exact .inl (completesWith_continueNext (s.setI_only _))
  | ldDtVx => exact .inl (completesWith_continueNext (s.setDt_only _))
  | ldStVx => exact .inl (completesWith_continueNext (s.setSt_only _))
  | cls => exact .inl (completesWith_continueNext (s.setFb_only _))

/-- What the next state after an instruction is. -/
theorem exec_next_cases {i : Instr} {s t : State} (h : exec i s = .next t) :
    (effectsOf i).Only s t ∨ ∃ f, Raises i s f ∧ t = s.latch f := by
  rcases exec_behaves i s with ⟨t', hexec, hframe⟩ | ⟨f, hraises, hexec⟩
  · obtain rfl : t = t' := by simpa [h] using hexec
    exact .inl hframe
  · exact .inr ⟨f, hraises, by simpa [h] using hexec⟩

/-- The frame of every instruction, whether it completes or raises: nothing but its effects, `pc` and the latch
changes. -/
theorem exec_frame {i : Instr} {s t : State} (h : exec i s = .next t) :
    (effectsOf i).Only s { t with fault := s.fault } := by
  rcases exec_next_cases h with ⟨hregs, hbytes, hi, hstack, hdt, hst, hfb, hdraws, hkeys, -, hturns⟩ | ⟨f, -, rfl⟩
  · exact ⟨hregs, hbytes, hi, hstack, hdt, hst, hfb, hdraws, hkeys, rfl, hturns⟩
  · exact Effects.only_refl _ s

/-- A state that has an error latched after an instruction that began without one was left by a raise. -/
theorem raises_of_fault {i : Instr} {s t : State} {f : Fault} (hrunning : s.fault = none) (h : exec i s = .next t)
    (hf : t.fault = some f) : Raises i s f ∧ t = s.latch f := by
  rcases exec_next_cases h with ⟨-, -, -, -, -, -, -, -, -, hfault, -⟩ | ⟨f', hraises, rfl⟩
  · rw [hfault, hrunning] at hf
    cases hf
  · obtain rfl : f' = f := Option.some.inj hf
    exact ⟨hraises, rfl⟩

/-! ### Errors -/

/-- Settles O21: an instruction that completes answers a next state, and so does one that raises. -/
theorem everyInstructionAnswersNext : Obligations.EveryInstructionAnswersNext := by
  intro i s
  rcases exec_behaves i s with ⟨t, hexec, -⟩ | ⟨f, -, hexec⟩
  · exact ⟨t, hexec⟩
  · exact ⟨s.latch f, hexec⟩

/-- Settles O22: a raise is the latch alone. -/
theorem errorsArePrecise : Obligations.ErrorsArePrecise := fun _ _ _ _ hrunning hexec hf =>
  (raises_of_fault hrunning hexec hf).2

/-- Settles O23: a raise has one of the listed reasons. -/
theorem onlyTheListedInstructionsRaise : Obligations.OnlyTheListedInstructionsRaise := fun _ _ _ _ hrunning hexec hf =>
  (raises_of_fault hrunning hexec hf).1

/-! ### Who has which effect -/

/-! One field of `effectsOf` at a time, read off the instructions one by one. -/

theorem effectsOf_display_iff (i : Instr) :
    (effectsOf i).display = true ↔ (∃ ign, i = .cls ign) ∨ (∃ x y n, i = .drwVxVyN x y n) := by
  cases i <;> simp [effectsOf, Effects.none, Effects.reg, Effects.regAndFlag]

theorem effectsOf_stack_iff (i : Instr) :
    (effectsOf i).stack = true ↔ (∃ addr, i = .call addr) ∨ (∃ ign, i = .ret ign) := by
  cases i <;> simp [effectsOf, Effects.none, Effects.reg, Effects.regAndFlag]

theorem effectsOf_bytes_iff (i : Instr) (a : Nat) :
    (effectsOf i).bytes a = true ↔ (∃ x, i = .ldBVx x) ∨ (∃ x, i = .ldMemIVx x) := by
  cases i <;> simp [effectsOf, Effects.none, Effects.reg, Effects.regAndFlag]

theorem effectsOf_index_iff (i : Instr) :
    (effectsOf i).index = true ↔ (∃ addr, i = .ldIAddr addr) ∨ (∃ x, i = .addIVx x) ∨ (∃ x, i = .ldFVx x) := by
  cases i <;> simp [effectsOf, Effects.none, Effects.reg, Effects.regAndFlag]

theorem effectsOf_delay_iff (i : Instr) : (effectsOf i).delay = true ↔ ∃ x, i = .ldDtVx x := by
  cases i <;> simp [effectsOf, Effects.none, Effects.reg, Effects.regAndFlag]

theorem effectsOf_sound_iff (i : Instr) : (effectsOf i).sound = true ↔ ∃ x, i = .ldStVx x := by
  cases i <;> simp [effectsOf, Effects.none, Effects.reg, Effects.regAndFlag]

theorem effectsOf_draws_iff (i : Instr) : (effectsOf i).draws = true ↔ ∃ x kk, i = .rndVxKk x kk := by
  cases i <;> simp [effectsOf, Effects.none, Effects.reg, Effects.regAndFlag]

/-- An instruction that is no flag instruction and does not name VF as its destination does not write VF; `LD Vx,[I]`
writes the registers up to its destination, of which VF is the last (R22, R165). -/
theorem effectsOf_regs_flagReg {i : Instr} (hdest : i.destination ≠ some 0xF) (hflag : ¬ i.writesFlag) :
    (effectsOf i).regs 0xF = false := by
  cases i with
  | ldVxMemI x =>
    have hx : x ≠ 0xF := fun h => hdest (congrArg some h)
    exact decide_eq_false (by bv_omega)
  | ldVxKk x | addVxKk x | ldVxVy x | orVxVy x | andVxVy x | xorVxVy x | ldVxDt x | ldVxK x | rndVxKk x =>
    exact beq_eq_false_iff_ne.mpr fun h => hdest (congrArg some h.symm)
  | addVxVy | subVxVy | subnVxVy | shrVx | shlVx | drwVxVyN => simp [Instr.writesFlag] at hflag
  | cls | ret | jmp | call | seVxKk | sneVxKk | seVxVy | sneVxVy | ldIAddr | jpV0Addr | skpVx | sknpVx | ldDtVx | ldStVx
  | addIVx | ldFVx | ldBVx | ldMemIVx => rfl

/-! ### The rules of the whole machine -/

/-- Settles O25: the display is an effect of these two alone. -/
theorem onlyClsAndDrwChangeTheDisplay : Obligations.OnlyClsAndDrwChangeTheDisplay := by
  intro i s t hexec hne
  obtain ⟨-, -, -, -, -, -, hfb, -⟩ := exec_frame hexec
  exact (effectsOf_display_iff i).mp (Bool.of_not_eq_false (mt hfb hne))

/-- Settles O26: the stack is an effect of these two alone, and each has one way to complete. -/
theorem onlyCallPushesAndOnlyRetPops : Obligations.OnlyCallPushesAndOnlyRetPops := by
  intro i s t hexec hne
  obtain ⟨-, -, -, hstack, -⟩ := exec_frame hexec
  rcases (effectsOf_stack_iff i).mp (Bool.of_not_eq_false (mt hstack hne)) with ⟨addr, rfl⟩ | ⟨ign, rfl⟩
  · rcases Nat.lt_or_ge s.stack.length 16 with hroom | hfull
    · rw [exec_call hroom] at hexec
      cases hexec
      exact .inl ⟨addr, rfl, rfl⟩
    · rw [exec_call_of_full hfull] at hexec
      cases hexec
      exact absurd rfl hne
  · rcases s.pop_cases with ⟨hempty, -⟩ | ⟨below, a, hsome, -⟩
    · rw [exec_ret_of_empty hempty] at hexec
      cases hexec
      exact absurd rfl hne
    · rw [exec_ret hsome] at hexec
      cases hexec
      exact .inr ⟨ign, a, rfl, hsome⟩

/-- Settles O27: stored bytes are an effect of these two alone. -/
theorem onlyTheTwoStoresChangeMemory : Obligations.OnlyTheTwoStoresChangeMemory := by
  intro i s t a hexec hne
  obtain ⟨-, hbytes, -⟩ := exec_frame hexec
  exact (effectsOf_bytes_iff i a).mp (Bool.of_not_eq_false (mt (hbytes a) hne))

/-- Settles O28: each of the four is an effect of its own writers alone. -/
theorem specialRegistersHaveTheirOwnWriters : Obligations.SpecialRegistersHaveTheirOwnWriters := by
  intro i s t hexec
  obtain ⟨-, -, hi, -, hdt, hst, -, hdraws, -⟩ := exec_frame hexec
  exact ⟨fun hne => (effectsOf_index_iff i).mp (Bool.of_not_eq_false (mt hi hne)),
    fun hne => (effectsOf_delay_iff i).mp (Bool.of_not_eq_false (mt hdt hne)),
    fun hne => (effectsOf_sound_iff i).mp (Bool.of_not_eq_false (mt hst hne)),
    fun hne => (effectsOf_draws_iff i).mp (Bool.of_not_eq_false (mt hdraws hne))⟩

/-- Settles O29: the keys and the host's turns are no effect of any instruction. -/
theorem noInstructionWritesTheKeys : Obligations.NoInstructionWritesTheKeys := by
  intro i s t hexec
  obtain ⟨-, -, -, -, -, -, -, -, hkeys, -, hturns⟩ := exec_frame hexec
  exact ⟨hkeys, hturns⟩

/-! ### VF -/

/-- VF holds a flag in the state that the result answers, unless an error is latched there. -/
def LeavesFlag (r : Result) : Prop := ∀ t, r = .next t → t.fault = none → t.getV 0xF = 0 ∨ t.getV 0xF = 1

theorem leavesFlag_setFlagThen (s : State) (f : Bool) {x : Nibble} (hx : x ≠ 0xF) (b : Byte) :
    LeavesFlag (s.setFlagThen f x b).continueNext := by
  obtain ⟨t, hexec, -, hflag, -⟩ := s.setFlagThen_continueNext_spec f x b
  intro t' hexec' _
  obtain rfl : t = t' := by simpa [hexec] using hexec'
  rw [hflag hx]
  exact flagByte_cases f

theorem leavesFlag_drwVxVyN (x y n : Nibble) (s : State) : LeavesFlag (exec (.drwVxVyN x y n) s) := by
  intro t hexec hrunning
  rcases s.withinBounds_cases n.toNat (encode (.drwVxVyN x y n)) _ with ⟨hrange, -⟩ | ⟨-, -, heq⟩
  · rw [exec_drwVxVyN hrange] at hexec
    cases hexec
    rw [State.getV_setPc, State.getV_flagReg_setFlag]
    exact flagByte_cases _
  · cases heq.symm.trans hexec
    cases hrunning

theorem leavesFlag_exec {i : Instr} (hdest : i.destination ≠ some 0xF) (hflag : i.writesFlag) (s : State) :
    LeavesFlag (exec i s) := by
  rcases hflag with ⟨x, y, rfl⟩ | ⟨x, y, rfl⟩ | ⟨x, y, rfl⟩ | ⟨x, ign, rfl⟩ | ⟨x, ign, rfl⟩ | ⟨x, y, n, rfl⟩
  on_goal 6 => exact leavesFlag_drwVxVyN x y n s
  all_goals exact leavesFlag_setFlagThen s _ (fun h => hdest (congrArg some h)) _

/-- Settles O24: VF is no effect of the other instructions, and the six leave a flag in it. -/
theorem onlyFlagInstructionsWriteVf : Obligations.OnlyFlagInstructionsWriteVf := by
  intro i s t _ hexec hdest
  obtain ⟨hregs, -⟩ := exec_frame hexec
  exact ⟨fun hflag => hregs 0xF (effectsOf_regs_flagReg hdest hflag),
    fun hflag => leavesFlag_exec hdest hflag s t hexec⟩

end Sys2Proof.Machine
end

section
/-! Proofs of the statements about the cycle, the error latch, the host's turn and reset (10_state.md sections 4 and 8
to 10, 70_reset_and_hazards.md), and that ignored bits change no effect (30_encoding.md R85). -/

namespace Sys2Proof.Machine

/-! ### The timers over several ticks -/

theorem Effects.only_trans {e : Effects} {s t u : State} (hst : e.Only s t) (htu : e.Only t u) : e.Only s u := by
  obtain ⟨hregs, hbytes, hi, hstack, hdt, hst, hfb, hdraws, hkeys, hfault, hturns⟩ := hst
  obtain ⟨hregs', hbytes', hi', hstack', hdt', hst', hfb', hdraws', hkeys', hfault', hturns'⟩ := htu
  exact ⟨fun r hr => (hregs' r hr).trans (hregs r hr), fun a ha => (hbytes' a ha).trans (hbytes a ha),
    fun h => (hi' h).trans (hi h), fun h => (hstack' h).trans (hstack h), fun h => (hdt' h).trans (hdt h),
    fun h => (hst' h).trans (hst h), fun h => (hfb' h).trans (hfb h), fun h => (hdraws' h).trans (hdraws h),
    hkeys'.trans hkeys, hfault'.trans hfault, hturns'.trans hturns⟩

/-- Settles O10, by induction on the number of ticks: subtraction of naturals stops at zero as a timer does. -/
theorem timersReachZeroAndStay : Obligations.TimersReachZeroAndStay := by
  intro k
  induction k with
  | zero => exact fun s => ⟨rfl, rfl, rfl, Effects.only_refl _ s⟩
  | succ k ih =>
    intro s
    obtain ⟨hdt, hst, hpc, hframe⟩ := ih s.timerTick
    refine ⟨?delay, ?sound, hpc, Effects.only_trans s.timerTick_only hframe⟩
    case delay =>
      rw [timerTicks, hdt, State.timerTick_dt, tickDown_toNat]
      omega
    case sound =>
      rw [timerTicks, hst, State.timerTick_st, tickDown_toNat]
      omega

/-! ### A step of the core -/

theorem decodeBytes_pair_eq_ok_iff {hi lo : Byte} {i : Instr} :
    decodeBytes [hi, lo] = .ok (i, []) ↔ decode (opcodeOfBytes hi lo) = .ok i := by
  simp only [decodeBytes]
  cases decode (opcodeOfBytes hi lo) <;> simp

theorem coreStep_of_fetchFails {s : State} (h : 0x0FFE < s.pc.toNat) :
    coreStep s = .next (s.latch (.fetchError s.pc)) := by
  simp [coreStep, State.fetchFails, h]

theorem coreStep_of_decode_error {s : State} {e : DecodeError} (hpc : s.pc.toNat ≤ 0x0FFE)
    (h : decode s.fetchOpcode = .error e) : coreStep s = .next (s.latch (.unknownOpcode s.fetchOpcode)) := by
  simp [coreStep, State.fetchFails, Nat.not_lt.mpr hpc, h]

theorem coreStep_of_decode_ok {s : State} {i : Instr} (hpc : s.pc.toNat ≤ 0x0FFE)
    (h : decode s.fetchOpcode = .ok i) : coreStep s = exec i s := by
  simp [coreStep, State.fetchFails, Nat.not_lt.mpr hpc, h]

/-- Settles O8: the two bytes at `pc`, which the tick leaves, are the opcode that the core fetches. -/
theorem stepRunsTheDecodedInstruction : Obligations.StepRunsTheDecodedInstruction := by
  intro s s' i hturn hrunning hpc hdecode
  have hfetch : decode s'.timerTick.fetchOpcode = .ok i := decodeBytes_pair_eq_ok_iff.mp hdecode
  rw [step_eq hturn, cycle_running hrunning, coreStep_of_decode_ok (s := s'.timerTick) hpc hfetch]

/-- Settles O12: the tick leaves `pc`, and the fetch fails on it. -/
theorem fetchBeyondMemoryRaises : Obligations.FetchBeyondMemoryRaises := by
  intro s s' hturn hrunning hpc
  rw [step_eq hturn, cycle_running hrunning, coreStep_of_fetchFails (s := s'.timerTick) hpc]
  rfl

/-- Settles O13: the tick leaves `pc` and memory, and the decoder fails on the opcode there. -/
theorem unknownOpcodeRaises : Obligations.UnknownOpcodeRaises := by
  intro s s' hturn hrunning hpc hdecode
  rw [step_eq hturn, cycle_running hrunning, coreStep_of_decode_error (s := s'.timerTick) hpc hdecode]
  rfl

/-- Settles O14: the jump writes `pc` with its own value, so all that is left of the step is the tick. -/
theorem parkedProgramStaysParked : Obligations.ParkedProgramStaysParked := by
  rintro s ⟨hrunning, hpc, addr, hdecode, haddr⟩ hturns
  refine ⟨?_, hrunning, hpc, addr, hdecode, haddr⟩
  calc step s = coreStep s.timerTick := by rw [step_eq (State.hostTurn_none hturns), cycle_running hrunning]
    _ = exec (.jmp addr) s.timerTick := coreStep_of_decode_ok (s := s.timerTick) hpc hdecode
    _ = .next s.timerTick := by
      rw [exec_jmp, haddr]
      rfl

/-- Settles O6: only the opcode that a failing `RET` records depends on an ignored nibble. -/
theorem ignoredBitsChangeNoEffect : Obligations.IgnoredBitsChangeNoEffect := by
  intro x y a b s
  refine ⟨rfl, fun hstack => ?_, rfl, rfl, rfl, rfl⟩
  rcases s.pop_cases with ⟨hempty, -⟩ | ⟨below, p, hsome, -⟩
  · exact absurd hempty hstack
  · rw [exec_ret hsome, exec_ret hsome]

/-! ### Turns of key events -/

/-- The state after key events, in order. -/
def State.setKeys (s : State) : List (Nibble × Bool) → State
  | [] => s
  | e :: events => (s.setKey e.1 e.2).setKeys events

theorem State.hostEvents_map_setKey (s : State) (events : List (Nibble × Bool)) :
    s.hostEvents (events.map fun e => HostEvent.setKey e.1 e.2) = .ok (s.setKeys events) := by
  induction events generalizing s with
  | nil => rfl
  | cons e events ih => exact ih (s.setKey e.1 e.2)

theorem State.hostTurn_setKeys {s : State} {events : List (Nibble × Bool)} {later : List (List HostEvent)}
    (h : s.hostTurns = (events.map fun e => HostEvent.setKey e.1 e.2) :: later) :
    s.hostTurn = .ok (State.setKeys { s with hostTurns := later } events) := by
  rw [State.hostTurn_cons h, State.hostEvents_map_setKey]

/-- Key events change the key latch alone. -/
theorem State.setKeys_eq (s : State) (events : List (Nibble × Bool)) :
    s.setKeys events = { s with keys := (s.setKeys events).keys } := by
  induction events generalizing s with
  | nil => rfl
  | cons e events ih => exact (ih (s.setKey e.1 e.2)).trans rfl

/-- The last event about a key decides its level. -/
theorem State.key_setKeys (s : State) (events : List (Nibble × Bool)) (q : Nibble) :
    (s.setKeys events).key q = ((events.reverse.find? fun e => e.1 == q).map Prod.snd).getD (s.key q) := by
  induction events generalizing s with
  | nil => rfl
  | cons e events ih =>
    rw [State.setKeys, ih, State.key_setKey, List.reverse_cons, List.find?_append]
    cases hlast : events.reverse.find? fun e => e.1 == q with
    | some e' => rfl
    | none =>
      by_cases hq : q = e.1
      · simp [hq]
      · simp [hq, Ne.symm hq]

/-- Settles O17: one key by `State.key_setKey`, a turn by the state that its events leave. -/
theorem hostTurnOfKeysChangesKeysAlone : Obligations.HostTurnOfKeysChangesKeysAlone :=
  ⟨State.key_setKey, fun _ events _ hturns =>
    ⟨_, State.hostTurn_setKeys hturns, State.setKeys_eq _ events, State.key_setKeys _ events⟩⟩

/-- Settles O11: key events leave the latch, and a cycle of a faulted core changes nothing. -/
theorem faultedCoreIgnoresCycle : Obligations.FaultedCoreIgnoresCycle := by
  intro s f hfault
  refine ⟨cycle_faulted hfault, fun hturns => ?idle, fun events later hturns => ?keys⟩
  case idle => rw [step_eq (State.hostTurn_none hturns), cycle_faulted hfault]
  case keys =>
    have hturn := State.hostTurn_setKeys hturns
    have hframe := State.setKeys_eq { s with hostTurns := later } events
    have hlatched : (State.setKeys { s with hostTurns := later } events).fault = some f := by
      rw [hframe]
      exact hfault
    exact ⟨_, hturn, hframe, hlatched, by rw [step_eq hturn, cycle_faulted hlatched]⟩

/-! ### Reset -/

theorem font_getD_of_le {a : Nat} (h : 0x50 ≤ a) : Config.font.getD a 0 = 0 := List.getD_eq_default _ _ h

/-- A loaded machine is the reset state but for its memory, which holds the image from 0x200 on and elsewhere the reset
contents (R44, R260). -/
theorem State.resetWith_eq_ok {image : List Byte} (h : image.length ≤ 3584) :
    ∃ mem, State.resetWith image = .ok { State.reset with mem := mem } ∧
      ∀ a, Memory.read mem a =
        if 0x200 ≤ a ∧ a < 0x200 + image.length then image.getD (a - 0x200) 0 else Config.font.getD a 0 := by
  obtain ⟨hframe, -⟩ := State.reset.writeBytes_eq Config.progBase image
  exact ⟨_, (State.resetWith_ok h).trans (congrArg _ hframe),
    State.memRead_writeBytes Memory.wf_reset _ image (Nat.add_le_add_left h 0x200)⟩

theorem State.getV_reset (r : Nibble) : State.reset.getV r = 0 := by
  simp [State.getV, State.reset]

theorem State.key_reset (k : Nibble) : State.reset.key k = false := by
  simp [State.key, State.reset]

/-- A turn that is one reset with an accepted image leaves the loaded machine and the model's own two fields. -/
theorem State.hostTurn_reset {s r : State} {image : List Byte} {later : List (List HostEvent)}
    (hturns : s.hostTurns = [.reset image] :: later) (hr : State.resetWith image = .ok r) :
    s.hostTurn = .ok { r with draws := s.draws, hostTurns := later } := by
  rw [State.hostTurn_cons hturns, State.hostEvents_reset, State.restart_eq hr]

/-- Settles O15: outside memory everything is as `State.reset` has it, and the addresses below, in and above the image
are told apart by `State.resetWith_eq_ok`. -/
theorem resetLeavesEveryValue : Obligations.ResetLeavesEveryValue := by
  refine ⟨fun image h => ?loaded, rfl, fun s image later h hturns => ?restarted⟩
  case loaded =>
    obtain ⟨mem, hloaded, hread⟩ := State.resetWith_eq_ok h
    have hreset : ∀ a, ¬ (0x200 ≤ a ∧ a < 0x200 + image.length) → Memory.read mem a = Config.font.getD a 0 :=
      fun a ha => (hread a).trans (if_neg ha)
    refine ⟨_, hloaded, State.getV_reset, rfl, rfl, rfl, rfl, rfl, FrameBuffer.pixel_clear State.reset.fb,
      State.key_reset, rfl, ?font, ?gap, ?image, ?rest⟩
    case font => exact fun a ha => hreset a (by omega)
    case gap => exact fun a hfont hbelow => (hreset a (by omega)).trans (font_getD_of_le hfont)
    case image =>
      intro j hj
      rw [State.memRead, hread, if_pos (by omega), Nat.add_sub_cancel_left]
    case rest => exact fun a habove _ => (hreset a (by omega)).trans (font_getD_of_le (by omega))
  case restarted =>
    have hturn := State.hostTurn_reset hturns (State.resetWith_ok h)
    exact ⟨_, State.resetWith_ok h, hturn, step_eq hturn⟩

theorem State.resetWith_tooLarge {image : List Byte} (h : 3584 < image.length) :
    State.resetWith image = .error .tooLarge := by
  simp [State.resetWith, imageWellFormed, Config.progMax, Nat.not_le.mpr h]

/-- Settles O16: the refused reset is the whole turn, and a step with a refused turn is refused. -/
theorem tooLargeImageIsRefused : Obligations.TooLargeImageIsRefused := by
  refine ⟨fun image h => State.resetWith_tooLarge h, fun s image later h hturns => ?_⟩
  have hturn : s.hostTurn = .error .tooLarge := by
    rw [State.hostTurn_cons hturns, State.hostEvents_reset, State.restart, State.resetWith_tooLarge h]
  rw [step, hostThenCycle, hturn]

/-- Settles O19: the start of every run, a closed state. -/
theorem resetHasTheInvariant : Obligations.ResetHasTheInvariant := State.reset_inv

/-- Settles O20: the image is a store to the reset state, and stores keep the invariant. -/
theorem loadedMachineHasTheInvariant : Obligations.LoadedMachineHasTheInvariant := fun _ _ hr => State.resetWith_inv hr

end Sys2Proof.Machine
end
